-- ==== Sys2Proof/Syntax.lean ====
section
/-! DEFINITION. The 14 commands of the Qvortex core (30_encoding.md R82), one constructor per row of
spec/opcode_table.json.  A command has no operand field: all its operands come from the latched operand
registers (30_encoding.md R80, R81). -/

namespace Sys2Proof

/-- A command of the engine. -/
inductive Instr where
  | qvInit         -- QV_INIT,        43_stream.md R174
  | qvUpdate       -- QV_UPDATE,      43_stream.md R175
  | qvFinal        -- QV_FINAL,       43_stream.md R176
  | qvHash         -- QV_HASH,        43_stream.md R177
  | vortexHash     -- VORTEX_HASH,    43_stream.md R178
  | keccakF        -- KECCAK_F,       40_keccak.md R108
  | spongeInit     -- SPONGE_INIT,    41_sponge.md R127
  | spongeAbsorb   -- SPONGE_ABSORB,  41_sponge.md R128
  | spongeFinal    -- SPONGE_FINAL,   41_sponge.md R129
  | spongeSqueeze  -- SPONGE_SQUEEZE, 41_sponge.md R130
  | lanesLoad      -- LANES_LOAD,     40_keccak.md R109
  | qvCompress     -- QV_COMPRESS,    42_sbox_compress.md R149
  | sboxLoad       -- SBOX_LOAD,      42_sbox_compress.md R150
  | hstateLoad     -- HSTATE_LOAD,    42_sbox_compress.md R151
deriving DecidableEq, Repr

end Sys2Proof
end

