-- ==== Sys2Proof/Word.lean ====
section
/-! DEFINITION. The word types of the Qvortex core: every datapath value is an unsigned integer of a stated
width (00_scope.md R8).  Everything computed from words stands in Machine/Bits.lean. -/

namespace Sys2Proof

/-- An 8-bit value: S-box entry, buffer entry, state byte, byte of host memory (00_scope.md R8). -/
abbrev Byte := BitVec 8

/-- A 32-bit register of the register block, or a command word (00_scope.md R8, 30_encoding.md R80). -/
abbrev Word32 := BitVec 32

/-- A 64-bit value: lane, chaining word, message word, working word, length (00_scope.md R8). -/
abbrev Word := BitVec 64

/-- A host byte address as the engine uses it: `ADDR_W = 64` (00_scope.md R6, 20_memory.md R60). -/
abbrev Addr := BitVec 64

end Sys2Proof
end

