-- ==== Sys2Proof/WellFormed.lean ====
section
/-! DEFINITION. Well-formed command words and commands (30_encoding.md R80, R82, R83).  A word carries two
checks: its `MBZ` field is zero, and its `OPCODE` is one of the opcode map.  A command (`Instr`) has no operand
field, so there is nothing in it to check. -/

namespace Sys2Proof

/-- The `OPCODE` field, bits 7:0 (30_encoding.md R80). -/
def opcodeField (w : Word32) : BitVec 8 := w.extractLsb' 0 8

/-- The must-be-zero field `MBZ`, bits 31:8 (30_encoding.md R80). -/
def mbzField (w : Word32) : BitVec 24 := w.extractLsb' 8 24

/-- The opcodes of the opcode map (30_encoding.md R82). -/
def listedOpcodes : List (BitVec 8) :=
  [0x01, 0x02, 0x03, 0x04, 0x05, 0x10, 0x11, 0x12, 0x13, 0x14, 0x15, 0x20, 0x21, 0x22]

/-- The check on `MBZ` (30_encoding.md R80, R83). -/
def mbzClear (w : Word32) : Bool := mbzField w == 0

/-- The check on `OPCODE` (30_encoding.md R82, R83). -/
def opcodeListed (w : Word32) : Bool := listedOpcodes.contains (opcodeField w)

/-- A word that is no illegal encoding (30_encoding.md R83). -/
def wordWellFormed (w : Word32) : Bool := mbzClear w && opcodeListed w

/-- Every command is well-formed: it has no field (30_encoding.md R80: "no immediate fields"). -/
def Instr.wellFormed : Instr → Bool
  | .qvInit => true
  | .qvUpdate => true
  | .qvFinal => true
  | .qvHash => true
  | .vortexHash => true
  | .keccakF => true
  | .spongeInit => true
  | .spongeAbsorb => true
  | .spongeFinal => true
  | .spongeSqueeze => true
  | .lanesLoad => true
  | .qvCompress => true
  | .sboxLoad => true
  | .hstateLoad => true

end Sys2Proof
end

