-- ==== Sys2Proof/Decode.lean ====
section
/-! DEFINITION. The decoder, total on every 32-bit word and on any bytes, rejecting by name (30_encoding.md
R82, R83, R84, R88), and after it the encoder, written from the match words of R82. -/

namespace Sys2Proof

/-- Why a word is no command. -/
inductive DecodeError where
  | mbzNonzero       -- some bit of w[31:8] is set (30_encoding.md R83)
  | opcodeUnlisted   -- w[31:8] = 0 but OPCODE is not in the opcode map (30_encoding.md R83)
  | notOneWord       -- the bytes are not one 32-bit word (30_encoding.md R84)
deriving DecidableEq, Repr

/-- The opcode map (30_encoding.md R82), read in the order of R88's case list. -/
def opcodeMap : List (BitVec 8 × Instr) :=
  [(0x01, .qvInit), (0x02, .qvUpdate), (0x03, .qvFinal), (0x04, .qvHash), (0x05, .vortexHash),
   (0x10, .keccakF), (0x11, .spongeInit), (0x12, .spongeAbsorb), (0x13, .spongeFinal),
   (0x14, .spongeSqueeze), (0x15, .lanesLoad), (0x20, .qvCompress), (0x21, .sboxLoad), (0x22, .hstateLoad)]

/-- The decode of `Execute` (30_encoding.md R88): the `MBZ` check first, then the opcode. -/
def decodeWord (w : Word32) : Except DecodeError Instr :=
  if mbzField w = 0 then
    match opcodeMap.find? (fun row => row.1 == opcodeField w) with
    | some row => .ok row.2
    | none => .error .opcodeUnlisted
  else .error .mbzNonzero

/-- The bytes of a command word as the register block lays them out: byte `b` of a register holds its bits
`[8b+7:8b]` (20_memory.md R64).  A command is always exactly one word (30_encoding.md R84). -/
def decodeBytes : List Byte → Except DecodeError Instr
  | [b0, b1, b2, b3] => decodeWord (b3 ++ b2 ++ b1 ++ b0)
  | _ => .error .notOneWord

/-- The bytes of a 32-bit register, lowest address first (20_memory.md R64). -/
def wordBytes (w : Word32) : List Byte :=
  [w.extractLsb' 0 8, w.extractLsb' 8 8, w.extractLsb' 16 8, w.extractLsb' 24 8]

/-- The full match word of each command (30_encoding.md R82). -/
def encode : Instr → Word32
  | .qvInit        => 0x00000001
  | .qvUpdate      => 0x00000002
  | .qvFinal       => 0x00000003
  | .qvHash        => 0x00000004
  | .vortexHash    => 0x00000005
  | .keccakF       => 0x00000010
  | .spongeInit    => 0x00000011
  | .spongeAbsorb  => 0x00000012
  | .spongeFinal   => 0x00000013
  | .spongeSqueeze => 0x00000014
  | .lanesLoad     => 0x00000015
  | .qvCompress    => 0x00000020
  | .sboxLoad      => 0x00000021
  | .hstateLoad    => 0x00000022

/-- The table's numbering of an instruction's bits as the command word itself: `nbits` bits of `w`, every bit
above them zero. -/
def tableWord (nbits w : Nat) : Word32 := BitVec.ofNat 32 (w % 2 ^ nbits)

/-- What the decoder reads from the table's bits `w`, laid out as bytes first. -/
def decodeTableWord (nbits w : Nat) : Option Instr :=
  match decodeBytes (wordBytes (tableWord nbits w)) with
  | .ok i => some i
  | .error _ => none

end Sys2Proof
end

