-- ==== Sys2Proof/Machine/Bits.lean ====
section
/-! DEFINITION. Bit and byte helpers: the operators of 00_scope.md R9 and the byte order of R10, R64, and
register files built and read by index. -/

namespace Sys2Proof.Machine

/-- The list `f i, f (i+1), ..., f (i+n-1)`. -/
def tabulateFrom {α : Type} (f : Nat → α) : Nat → Nat → List α
  | 0, _ => []
  | n + 1, i => f i :: tabulateFrom f n (i + 1)

theorem length_tabulateFrom {α : Type} (f : Nat → α) : ∀ n i, (tabulateFrom f n i).length = n
  | 0, _ => rfl
  | n + 1, i => congrArg (· + 1) (length_tabulateFrom f n (i + 1))

/-- The register file whose entry `i` is `f i`. -/
def tabulate {α : Type} (n : Nat) (f : Nat → α) : Vector α n :=
  ⟨⟨tabulateFrom f n 0⟩, length_tabulateFrom f n 0⟩

/-- Entry `i` of a register file (`A[i]`, `H[i]`, `SBOX[i]`, `BUF[i]` of 00_scope.md R11); no rule asks for an
entry outside the file. -/
def entry {w n : Nat} (v : Vector (BitVec w) n) (i : Nat) : BitVec w := v.toList.getD i 0

/-- `rotl64(a, n)`: the left rotation by `n mod 64` places (00_scope.md R9). -/
def rotl64 (a : Word) (n : Nat) : Word := a.rotateLeft n

/-- `le64` of eight bytes: the first byte is bits 7:0 (00_scope.md R10). -/
def le64 (f : Nat → Byte) : Word := f 7 ++ f 6 ++ f 5 ++ f 4 ++ f 3 ++ f 2 ++ f 1 ++ f 0

/-- The 32-bit register whose byte `b` is `f b` (20_memory.md R64, 10_state.md R43). -/
def le32 (f : Nat → Byte) : Word32 := f 3 ++ f 2 ++ f 1 ++ f 0

/-- Byte `i` of a 64-bit value: bits `[8i+7:8i]` (00_scope.md R7). -/
def byteOf (w : Word) (i : Nat) : Byte := w.extractLsb' (8 * i) 8

/-- `bytes64(w)`: the eight bytes of a word, least significant first (00_scope.md R10). -/
def bytes64 (w : Word) : List Byte := tabulateFrom (byteOf w) 8 0

/-- Bits 31:0 and 63:32 of a 64-bit register (10_state.md R38, R42, R44). -/
def loHalf (w : Word) : Word32 := w.extractLsb' 0 32

@[inherit_doc loHalf]
def hiHalf (w : Word) : Word32 := w.extractLsb' 32 32

/-- A write to a `_LO` or `_HI` half: the other half keeps its value (10_state.md R38). -/
def setLoHalf (w : Word) (v : Word32) : Word := hiHalf w ++ v

@[inherit_doc setLoHalf]
def setHiHalf (w : Word) (v : Word32) : Word := v ++ loHalf w

end Sys2Proof.Machine
end

