-- ==== Sys2Proof/Config.lean ====
section
/-! DEFINITION. What this implementation fixes (00_scope.md R6) and the free values: opaque constants with no
body, so that no proof can know their value. -/

namespace Sys2Proof.Config

/-- The two readings of the default key (42_sbox_compress.md R140, 90_conflicts.md C2). -/
inductive SeedMode where
  | absorb   -- the default key is passed through SHAKE-128 first
  | literal  -- the default key is the seed itself
deriving DecidableEq, Repr

/-- `ROT_SHIFT`, fixed at 56 for this hardware (00_scope.md R6, decision D19); the functions of
Machine/Compress.lean take it as an argument, so the alternative reading 58 can be run too. -/
def rotShift : Nat := 56

/-- `DEFAULT_SEED_MODE`, fixed at `ABSORB` for this hardware (00_scope.md R6, decision D20). -/
def defaultSeedMode : SeedMode := .absorb

/-- What a byte of host memory that nothing has written reads as.
DESIGN CHOICE (notes/assumptions/1.md); unsafe: the spec gives host memory no contents after power-on. -/
def unlistedByte : Byte := 0

/-- FREE VALUE: the unspecified 32-bit value of a window read while `BUSY = 1` (10_state.md R48), one per draw. -/
opaque freeWord : Nat → Word32

/-- FREE VALUE: the unspecified bytes a command abandoned by reset leaves in its output range
(70_reset_and_hazards.md R231), one per draw. -/
opaque freeByte : Nat → Byte

end Sys2Proof.Config
end

