-- ==== Sys2Proof/Machine/State.lean ====
section
/-! DEFINITION. The state of the machine: the registers of the block (10_state.md), host memory
(20_memory.md R60), the platform's parameters (00_scope.md R6), and what the host agent does next
(10_state.md R20).  Plain data throughout. -/

namespace Sys2Proof.Machine

/-! ### Keccak and sponge state (10_state.md section 2) -/

/-- `PHASE` (10_state.md R25). -/
inductive Phase where
  | absorb
  | squeeze
deriving DecidableEq, Repr

/-- The lane file `A[0..24]` (10_state.md R21). -/
abbrev Lanes := Vector Word 25

/-- The lane file with the two registers of the sponge controller (10_state.md R21, R24, R25).
`RATE_USED` has the values 0..168. -/
structure Sponge where
  lanes    : Lanes
  rateUsed : Fin 169
  phase    : Phase
deriving DecidableEq, Repr

/-! ### The Qvortex context (10_state.md section 3) -/

/-- The chaining state `H[0..7]`, and the working words of a compression (10_state.md R26). -/
abbrev Chain := Vector Word 8

/-- The S-box `SBOX[0..255]` (10_state.md R28). -/
abbrev SBox := Vector Byte 256

/-- 64 bytes: the block buffer `BUF[0..63]`, and any block that is compressed (10_state.md R29). -/
abbrev Block := Vector Byte 64

/-- The context (10_state.md R26 to R31).  `BUF_LEN` has the values 0..63: it reaches 64 only inside a step. -/
structure Context where
  h        : Chain
  sbox     : SBox
  buf      : Block
  bufLen   : Fin 64
  totalLen : Word
deriving DecidableEq, Repr

/-! ### The register block and the hidden latch (10_state.md sections 4 and 5) -/

/-- The three bits of `STATUS` (10_state.md R36): `BUSY`, `DONE`, `OVERRUN`. -/
structure Status where
  busy    : Bool
  isDone  : Bool
  overrun : Bool
deriving DecidableEq, Repr

/-- The six 64-bit operands (10_state.md R38). -/
structure Operands where
  srcAddr : Addr
  srcLen  : Word
  keyAddr : Addr
  keyLen  : Word
  dstAddr : Addr
  dstLen  : Word
deriving DecidableEq, Repr

/-- `LATCH`: the accepted command word and operands (10_state.md R49). -/
structure Latch where
  op       : Word32
  operands : Operands
deriving DecidableEq, Repr

/-- The result codes (60_exceptions.md R201). -/
inductive ResultCode where
  | ok
  | eNull
  | eAlloc
  | eIllegal
  | ePhase
deriving DecidableEq, Repr

/-! ### Host memory and the platform (20_memory.md) -/

/-- Host memory `HM`: address and byte pairs, addresses strictly rising, no byte equal to
`Config.unlistedByte` (`Memory.wf` of Machine/Ops.lean). -/
abbrev Memory := List Host.Cell

/-- The bytes `base, base+1, ..., base+len-1`. -/
structure Range where
  base : Nat
  len  : Nat
deriving DecidableEq, Repr

/-- What the platform does with a part of the host address space that is not plain memory
(20_memory.md R63, R69). -/
inductive RegionKind where
  | absent          -- the platform provides no memory there (R63)
  | noEngine        -- memory, but the platform lets the engine neither read nor write it (R63)
  | engineReadOnly  -- memory that the platform lets the engine read but not write (R63)
  | device          -- a device whose reads have side effects (R69)
deriving DecidableEq, Repr

/-- One region of the platform's memory map. -/
structure Region where
  kind : RegionKind
  span : Range
deriving DecidableEq, Repr

/-- The parameters the spec leaves OPEN and a rule depends on: `BASE`, `PLATFORM_COHERENT` (00_scope.md R6) and
the platform's memory map (20_memory.md R63, R70).  No step changes them. -/
structure Platform where
  base     : Addr
  coherent : Bool
  regions  : List Region
deriving DecidableEq, Repr

/-! ### The host agent and the order of transitions (10_state.md R20, 60_exceptions.md R212) -/

/-- The width of a host access to the register block (20_memory.md R67). -/
inductive AccessWidth where
  | w8
  | w16
  | w32
  | w64
deriving DecidableEq, Repr

/-- One step of the host (10_state.md R20, 30_encoding.md R85, 20_memory.md R60, R76). -/
inductive HostOp where
  | regWrite (width : AccessWidth) (off : BitVec 12) (v : Word32)  -- `WR`: write at BASE + off
  | regRead (width : AccessWidth) (off : BitVec 12)                -- `RD`: read at BASE + off
  | waitIdle                                                       -- `WAIT`: read STATUS until BUSY = 0
  | memWrite (a : Addr) (v : Byte)                                 -- a host store of one byte (`MEM`)
  | memRead (a : Addr)                                             -- a host load of one byte
  | cacheClean (r : Range)                                         -- cache maintenance of R76
  | cacheInvalidate (r : Range)                                    -- cache maintenance of R76
deriving DecidableEq, Repr

/-- A value the host has read: `RD <reg> -> <name>` binds it, the model logs it. -/
inductive HostRead where
  | reg (off : BitVec 12) (v : Word32)
  | mem (a : Addr) (v : Byte)
deriving DecidableEq, Repr

/-- Whose transition is taken next (60_exceptions.md R212). -/
inductive Turn where
  | engine
  | host
  | reset    -- the platform asserts reset (70_reset_and_hazards.md R230)
deriving DecidableEq, Repr

/-! ### The state -/

/-- The whole machine.  The fields down to `latch` are the block's (10_state.md); `mem` is host memory;
`platform` its OPEN parameters; the rest is the host agent and the model's own bookkeeping, which
INVENTORY.md lists as such. -/
structure State where
  sponge    : Sponge
  ctx       : Context
  status    : Status
  result    : Word32
  operands  : Operands
  legacy0   : Word32
  legacy1   : Word32
  latch     : Latch
  mem       : Memory
  platform  : Platform
  hostOps   : List HostOp     -- what the host does next, in program order
  turns     : List Turn       -- the order of the next transitions; empty: Machine/Step.lean's default
  hostReads : List HostRead   -- what the host has read, newest first
  cleaned   : List Range      -- bytes cleaned since the host last wrote them (R76)
  stale     : List Range      -- output bytes not invalidated since a command wrote them (R76)
  draws     : Nat             -- how many free values have been drawn (the model's own counter)
deriving DecidableEq, Repr

/-! ### Stops -/

/-- Why the engine has no step (20_memory.md R63). -/
inductive StuckReason where
  | rangeWraps    -- an operand range wraps past 2^64 - 1
  | notAdmitted   -- an operand range touches a byte the platform does not let the engine access
deriving DecidableEq, Repr

/-- The machine stops. -/
inductive Fault where
  /-- The engine is stuck: the command has no engine step and `BUSY` stays 1 (20_memory.md R63, "the engine is
  stuck").  Raised by every command whose operand range wraps or is not admitted, through `State.access`.
  Safe: the spec gives such a command no behaviour. -/
  | engineStuck (why : StuckReason)
deriving DecidableEq, Repr

/-- The model has no meaning for what was asked. -/
inductive Refusal where
  /-- An instruction that has no meaning yet.  Raised by an arm of `exec` only.  Safe. -/
  | notModelled (mnemonic : String)
  /-- An operand range touches a device with read side effects: "the effect is not specified and a model
  refuses the command" (20_memory.md R69).  Raised by the commands through `State.access`.  Safe. -/
  | deviceOperand
  /-- A host access of other than an aligned 32-bit shape to the register block: "A model refuses such an
  access" (20_memory.md R67).  Raised by the host's move.  Safe. -/
  | registerAccessShape
  /-- A host access that races the running command's operand bytes: "A model refuses a program that has such a
  race" (20_memory.md R73, 70_reset_and_hazards.md R236).  Raised by the host's move.  Safe. -/
  | operandRace
  /-- A host access to an address where the platform has no plain memory (20_memory.md R60, R70: the platform's).
  Raised by the host's move.  Safe. -/
  | notHostMemory
  /-- `PLATFORM_COHERENT = false`: an accepting `CMD` write whose input ranges were not cleaned
  (20_memory.md R76, "must refuse programs that lack those steps").  Raised by the host's move.  Safe. -/
  | cleanMissing
  /-- `PLATFORM_COHERENT = false`: a host read of an output byte that was not invalidated (20_memory.md R76).
  Raised by the host's move.  Safe. -/
  | invalidateMissing
deriving DecidableEq, Repr

/-- The outcome of one step. -/
abbrev StepResult := Host.Outcome State Fault Refusal

/-! ### Reset values (10_state.md R50) -/

/-- The initialised sponge (10_state.md R50, 41_sponge.md R122). -/
def Sponge.reset : Sponge :=
  { lanes := Vector.replicate 25 0, rateUsed := 0, phase := .absorb }

/-- The zeroised context (10_state.md R50). -/
def Context.reset : Context :=
  { h := Vector.replicate 8 0, sbox := Vector.replicate 256 0, buf := Vector.replicate 64 0,
    bufLen := 0, totalLen := 0 }

/-- `BUSY`, `DONE`, `OVERRUN` after reset (10_state.md R50). -/
def Status.reset : Status := { busy := false, isDone := false, overrun := false }

/-- The operand registers after reset (10_state.md R50). -/
def Operands.reset : Operands :=
  { srcAddr := 0, srcLen := 0, keyAddr := 0, keyLen := 0, dstAddr := 0, dstLen := 0 }

/-- `LATCH` after reset (10_state.md R50). -/
def Latch.reset : Latch := { op := 0, operands := Operands.reset }

/-- The platform that `State.reset` stands on: plain memory at every address, coherent, the register block at
`0xFFFFFFFFFFFFF000`.  DESIGN CHOICE (notes/assumptions/2.md); unsafe: all three are OPEN. -/
def Platform.default : Platform :=
  { base := 0xFFFFFFFFFFFFF000, coherent := true, regions := [] }

/-- The machine right after reset (10_state.md R50, 70_reset_and_hazards.md R230, R232): the block's registers
as the spec says, nothing listed in memory, the host with nothing to do. -/
def State.reset : State :=
  { sponge := Sponge.reset, ctx := Context.reset, status := Status.reset, result := 0,
    operands := Operands.reset, legacy0 := 0, legacy1 := 0, latch := Latch.reset,
    mem := [], platform := Platform.default, hostOps := [], turns := [], hostReads := [],
    cleaned := [], stale := [], draws := 0 }

end Sys2Proof.Machine
end

