-- ==== Sys2Proof/Machine/Ops.lean ====
section
/-! DEFINITION. The shared operations over host memory (20_memory.md), the platform's admission of an operand
range, and completion, which is the block's only "entry" (60_exceptions.md R208). -/

namespace Sys2Proof.Machine

/-! ### Host memory (20_memory.md R60, R61) -/

/-- `MemRead(a, 1)`. -/
def Memory.read : Memory → Nat → Byte
  | [], _ => Config.unlistedByte
  | (b, w) :: m, a => if a = b then w else Memory.read m a

/-- `MemWrite(a, 1, v)`, keeping the canonical form. -/
def Memory.write : Memory → Nat → Byte → Memory
  | [], a, v => if v = Config.unlistedByte then [] else [(a, v)]
  | (b, w) :: m, a, v =>
    if a < b then (if v = Config.unlistedByte then (b, w) :: m else (a, v) :: (b, w) :: m)
    else if a = b then (if v = Config.unlistedByte then m else (a, v) :: m)
    else (b, w) :: Memory.write m a v

/-- The canonical form from address `lo` on: addresses rising, below 2^64, no byte an unlisted one reads as. -/
def Memory.wfFrom : Nat → Memory → Bool
  | _, [] => true
  | lo, (a, v) :: m =>
    decide (lo ≤ a) && decide (a < 2 ^ 64) && (v != Config.unlistedByte) && Memory.wfFrom (a + 1) m

/-- The canonical form of memory. -/
def Memory.wf (m : Memory) : Bool := Memory.wfFrom 0 m

/-- The bytes at `a, a+1, ..., a+n-1`, in increasing address order (20_memory.md R61). -/
def Memory.readBytes (m : Memory) (a n : Nat) : List Byte := tabulateFrom m.read n a

/-- Stores bytes at `a, a+1, ...`, in increasing address order (20_memory.md R61). -/
def Memory.writeBytes (m : Memory) (a : Nat) : List Byte → Memory
  | [] => m
  | v :: vs => Memory.writeBytes (m.write a v) (a + 1) vs

/-! ### Ranges -/

/-- The range of `n` bytes at `a`; nothing is reduced, so a range may reach past 2^64. -/
def Range.ofAddr (a : Addr) (n : Nat) : Range := ⟨a.toNat, n⟩

/-- Byte `a` lies in the range. -/
def Range.contains (r : Range) (a : Nat) : Bool := decide (r.base ≤ a ∧ a < r.base + r.len)

/-- The range wraps past address 2^64 - 1 (20_memory.md R63: `addr + len > 2^64` with `len > 0`). -/
def Range.wraps (r : Range) : Bool := decide (0 < r.len ∧ 2 ^ 64 < r.base + r.len)

/-- The two ranges share a byte. -/
def Range.overlaps (r q : Range) : Bool :=
  decide (0 < r.len ∧ 0 < q.len ∧ r.base < q.base + q.len ∧ q.base < r.base + r.len)

/-- The bytes of `r` that are not in `c`: the part below it and the part above it. -/
def Range.minus (r c : Range) : List Range :=
  let below : Range := ⟨r.base, min (r.base + r.len) c.base - r.base⟩
  let above : Range := ⟨max r.base (c.base + c.len), r.base + r.len - max r.base (c.base + c.len)⟩
  [below, above].filter (fun q => decide (0 < q.len))

/-- `Range.minus` of every range of a list. -/
def minusAll (rs : List Range) (c : Range) : List Range := rs.flatMap (fun r => r.minus c)

/-- Every byte of `r` lies in some range of `cs`. -/
def Range.coveredBy (r : Range) (cs : List Range) : Bool :=
  (cs.foldl minusAll [r]).all (fun q => q.len == 0)

/-! ### Operand ranges and the platform (20_memory.md R63, R69) -/

/-- Whether a command reads or writes an operand range. -/
inductive Access where
  | read
  | write
deriving DecidableEq, Repr

/-- A memory operand of a command (30_encoding.md R89: the byte range of a latched address and length). -/
structure Operand where
  access : Access
  range  : Range
deriving DecidableEq, Repr

/-- An input operand of `n` bytes at `a`. -/
def Operand.input (a : Addr) (n : Nat) : Operand := ⟨.read, Range.ofAddr a n⟩

/-- An output operand of `n` bytes at `a`. -/
def Operand.output (a : Addr) (n : Nat) : Operand := ⟨.write, Range.ofAddr a n⟩

/-- The engine may not make this access in a region of this kind (20_memory.md R63). -/
def RegionKind.bars : RegionKind → Access → Bool
  | .absent, _ => true
  | .noEngine, _ => true
  | .engineReadOnly, .read => false
  | .engineReadOnly, .write => true
  | .device, _ => false

/-- Some byte of the operand is one the platform does not let the engine access so (20_memory.md R63). -/
def Platform.bars (p : Platform) (o : Operand) : Bool :=
  p.regions.any (fun g => g.kind.bars o.access && g.span.overlaps o.range)

/-- Some byte of the operand belongs to a device (20_memory.md R69). -/
def Platform.hasDevice (p : Platform) (o : Operand) : Bool :=
  p.regions.any (fun g => g.kind == .device && g.span.overlaps o.range)

/-- Why a command with these operands has no engine step, if it has none (20_memory.md R63). -/
def Platform.stuckOn (p : Platform) (ops : List Operand) : Option StuckReason :=
  if ops.any (fun o => o.range.wraps) then some .rangeWraps
  else if ops.any p.bars then some .notAdmitted
  else none

/-- A command's memory accesses, once its checks have passed: stuck, refused, or `go`.  The whole command is one
transition (10_state.md R52), so a range that is not admitted stops it before anything is written. -/
def State.access (s : State) (ops : List Operand) (go : StepResult) : StepResult :=
  match s.platform.stuckOn ops with
  | some why => .fault (.engineStuck why)
  | none => if ops.any s.platform.hasDevice then .refused .deviceOperand else go

/-- The bytes of an input operand. -/
def State.readBytes (s : State) (a : Addr) (n : Nat) : List Byte := s.mem.readBytes a.toNat n

/-- Stores the bytes of an output operand. -/
def State.writeBytes (s : State) (a : Addr) (vs : List Byte) : State :=
  { s with mem := s.mem.writeBytes a.toNat vs }

/-! ### Completion (60_exceptions.md R208, 10_state.md R52) -/

/-- The 32-bit two's complement value of a result code (60_exceptions.md R201). -/
def ResultCode.bits : ResultCode → Word32
  | .ok       => 0x00000000
  | .eNull    => 0xFFFFFFFF
  | .eAlloc   => 0xFFFFFFFE
  | .eIllegal => 0xFFFFFFFD
  | .ePhase   => 0xFFFFFFFC

/-- `complete(code)`: `RESULT <- code; BUSY <- 0; DONE <- 1`, and nothing else (60_exceptions.md R208). -/
def State.complete (s : State) (code : ResultCode) : State :=
  { s with result := code.bits, status := { s.status with busy := false, isDone := true } }

end Sys2Proof.Machine
end

