-- ==== Sys2Proof/Machine/Operands.lean ====
section
/-! DEFINITION. The operand registers (10_state.md R38), the operands each command reads (30_encoding.md R87), the
checks on them (60_exceptions.md R202, R204, R206), and the byte ranges a running command touches
(70_reset_and_hazards.md R236). -/

namespace Sys2Proof.Machine

/-! ### Latching (10_state.md R35, R49) -/

/-- `LATCH <- { op: w, SRC_ADDR, SRC_LEN, KEY_ADDR, KEY_LEN, DST_ADDR, DST_LEN }` (10_state.md R35). -/
def State.latchCommand (s : State) (w : Word32) : State := { s with latch := { op := w, operands := s.operands } }

/-! ### The memory operands of each command (30_encoding.md R87) -/

/-- The operand ranges of a command, in the order it accesses them (20_memory.md R72). -/
def footprint (i : Instr) (o : Operands) : List Operand :=
  match i with
  | .qvInit => [.input o.keyAddr o.keyLen.toNat]
  | .qvUpdate => [.input o.srcAddr o.srcLen.toNat]
  | .qvFinal => [.output o.dstAddr 32]
  | .qvHash => [.input o.keyAddr o.keyLen.toNat, .input o.srcAddr o.srcLen.toNat, .output o.dstAddr 32]
  | .vortexHash => [.input o.keyAddr o.keyLen.toNat, .input o.srcAddr o.srcLen.toNat, .output o.dstAddr 32]
  | .keccakF => []
  | .spongeInit => []
  | .spongeAbsorb => [.input o.srcAddr o.srcLen.toNat]
  | .spongeFinal => []
  | .spongeSqueeze => [.output o.dstAddr o.dstLen.toNat]
  | .lanesLoad => [.input o.srcAddr 200]
  | .qvCompress => [.input o.srcAddr 64]
  | .sboxLoad => [.input o.srcAddr 256]
  | .hstateLoad => [.input o.srcAddr 64]

/-! ### The checks of a command (60_exceptions.md R202, R204, R206) -/

/-- A sized operand is null: address 0 with a non-zero length (60_exceptions.md R202). -/
def nullSpan (a : Addr) (n : Word) : Bool := a == 0 && n != 0

/-- The `E_NULL` conditions (60_exceptions.md R202). -/
def nullFault (i : Instr) (o : Operands) : Bool :=
  match i with
  | .qvInit => nullSpan o.keyAddr o.keyLen
  | .qvUpdate => nullSpan o.srcAddr o.srcLen
  | .qvFinal => o.dstAddr == 0
  | .qvHash => o.dstAddr == 0 || nullSpan o.srcAddr o.srcLen || nullSpan o.keyAddr o.keyLen
  | .vortexHash => o.dstAddr == 0 || nullSpan o.srcAddr o.srcLen || nullSpan o.keyAddr o.keyLen
  | .keccakF => false
  | .spongeInit => false
  | .spongeAbsorb => nullSpan o.srcAddr o.srcLen
  | .spongeFinal => false
  | .spongeSqueeze => nullSpan o.dstAddr o.dstLen
  | .lanesLoad => o.srcAddr == 0
  | .qvCompress => o.srcAddr == 0
  | .sboxLoad => o.srcAddr == 0
  | .hstateLoad => o.srcAddr == 0

/-- The `E_PHASE` conditions (60_exceptions.md R204). -/
def phaseFault (i : Instr) (p : Phase) : Bool :=
  match i with
  | .qvInit => false
  | .qvUpdate => false
  | .qvFinal => false
  | .qvHash => false
  | .vortexHash => false
  | .keccakF => false
  | .spongeInit => false
  | .spongeAbsorb => p == .squeeze
  | .spongeFinal => p == .squeeze
  | .spongeSqueeze => p == .absorb
  | .lanesLoad => false
  | .qvCompress => false
  | .sboxLoad => false
  | .hstateLoad => false

/-! ### What the latched command touches -/

/-- The operand ranges the latched command touches: none if it is illegal or will be rejected, since a rejected
command accesses no memory (60_exceptions.md R203, R207). -/
def State.activeFootprint (s : State) : List Operand :=
  match decodeWord s.latch.op with
  | .error _ => []
  | .ok i =>
    if nullFault i s.latch.operands || phaseFault i s.sponge.phase then [] else footprint i s.latch.operands

/-- The ranges the latched command reads (70_reset_and_hazards.md R236). -/
def State.readRanges (s : State) : List Range :=
  (s.activeFootprint.filter (fun o => o.access == .read)).map Operand.range

/-- The ranges the latched command writes (70_reset_and_hazards.md R236). -/
def State.writeRanges (s : State) : List Range :=
  (s.activeFootprint.filter (fun o => o.access == .write)).map Operand.range

end Sys2Proof.Machine
end

