-- ==== Sys2Proof/Machine/Keccak.lean ====
section
/-! DEFINITION. The Keccak-f[1600] permutation engine (40_keccak.md) and its two commands. -/

namespace Sys2Proof.Machine

/-! ### The permutation (40_keccak.md R100 to R106) -/

/-- The θ step's column parity `C[i]` (40_keccak.md R101). -/
def thetaC (a : Lanes) : Vector Word 5 :=
  tabulate 5 fun i => entry a i ^^^ entry a (i + 5) ^^^ entry a (i + 10) ^^^ entry a (i + 15) ^^^ entry a (i + 20)

/-- The θ step's `D[i]`, from all five `C` values (40_keccak.md R101). -/
def thetaD (c : Vector Word 5) : Vector Word 5 :=
  tabulate 5 fun i => rotl64 (entry c ((i + 1) % 5)) 1 ^^^ entry c ((i + 4) % 5)

/-- The θ step (40_keccak.md R101). -/
def theta (a : Lanes) : Lanes :=
  let d := thetaD (thetaC a)
  tabulate 25 fun i => entry a i ^^^ entry d (i % 5)

/-- The ρ and π steps as a table by destination: lane `dst` receives lane `src` rotated left by `r`
(40_keccak.md R103); lane 0 stays.  Row `dst` is `(src, r)`. -/
def rhoPiTable : List (Nat × Nat) :=
  [(0, 0),   (6, 44),  (12, 43), (18, 21), (24, 14),
   (3, 28),  (9, 20),  (10, 3),  (16, 45), (22, 61),
   (1, 1),   (7, 6),   (13, 25), (19, 8),  (20, 18),
   (4, 27),  (5, 36),  (11, 10), (17, 15), (23, 56),
   (2, 62),  (8, 55),  (14, 39), (15, 41), (21, 2)]

/-- The ρ and π steps (40_keccak.md R103). -/
def rhoPi (a : Lanes) : Lanes :=
  ⟨⟨rhoPiTable.map fun row => rotl64 (entry a row.1) row.2⟩, rfl⟩

/-- `PI_ORDER` paired with `RHO`, the two lists of 40_keccak.md R102. -/
def rhoPiSteps : List (Nat × Nat) :=
  [10, 7, 11, 17, 18, 3, 5, 16, 8, 21, 24, 4, 15, 23, 19, 13, 12, 2, 20, 14, 22, 9, 6, 1].zip
    [1, 3, 6, 10, 15, 21, 28, 36, 45, 55, 2, 14, 27, 41, 56, 8, 25, 43, 62, 18, 39, 61, 20, 44]

/-- One step of the chained walk: `b <- A[j]; A[j] <- rotl64(t, r); t <- b` (40_keccak.md R102). -/
def rhoPiWalkStep (at' : Lanes × Word) (step : Nat × Nat) : Lanes × Word :=
  (at'.1.setIfInBounds step.1 (rotl64 at'.2 step.2), entry at'.1 step.1)

/-- The ρ and π steps as the chained walk of 40_keccak.md R102, from `t = A[1]`.  The machine uses `rhoPi`; that
the two are equal is an obligation. -/
def rhoPiWalk (a : Lanes) : Lanes := (rhoPiSteps.foldl rhoPiWalkStep (a, entry a 1)).1

/-- The χ step: every lane of a row from the old row (40_keccak.md R104). -/
def chi (a : Lanes) : Lanes :=
  tabulate 25 fun i =>
    let y := i / 5
    let x := i % 5
    entry a i ^^^ (~~~ entry a (5 * y + (x + 1) % 5) &&& entry a (5 * y + (x + 2) % 5))

/-- `RC[round]` (40_keccak.md R105), in the table's two columns; there is no other round. -/
def roundConstant : Nat → Word
  | 0  => 0x0000000000000001
  | 12 => 0x000000008000808B
  | 1  => 0x0000000000008082
  | 13 => 0x800000000000008B
  | 2  => 0x800000000000808A
  | 14 => 0x8000000000008089
  | 3  => 0x8000000080008000
  | 15 => 0x8000000000008003
  | 4  => 0x000000000000808B
  | 16 => 0x8000000000008002
  | 5  => 0x0000000080000001
  | 17 => 0x8000000000000080
  | 6  => 0x8000000080008081
  | 18 => 0x000000000000800A
  | 7  => 0x8000000000008009
  | 19 => 0x800000008000000A
  | 8  => 0x000000000000008A
  | 20 => 0x8000000080008081
  | 9  => 0x0000000000000088
  | 21 => 0x8000000000008080
  | 10 => 0x0000000080008009
  | 22 => 0x0000000080000001
  | 11 => 0x000000008000000A
  | 23 => 0x8000000080008008
  | _  => 0

/-- The ι step with the round's constant (40_keccak.md R105). -/
def iota (a : Lanes) (rc : Word) : Lanes := a.setIfInBounds 0 (entry a 0 ^^^ rc)

/-- Round `round`: θ, ρ and π, χ, ι (40_keccak.md R100). -/
def keccakRound (a : Lanes) (round : Nat) : Lanes := iota (chi (rhoPi (theta a))) (roundConstant round)

/-- `keccak_f`: the rounds 0 to 23 (40_keccak.md R100). -/
def keccakF (a : Lanes) : Lanes := (List.range 24).foldl keccakRound a

/-- One step of the LFSR of 40_keccak.md R106: multiply by `x` modulo `x^8 + x^6 + x^5 + x^4 + 1`. -/
def lfsrStep (v : BitVec 8) : BitVec 8 := if v.getLsbD 7 then (v <<< 1) ^^^ 0x71 else v <<< 1

/-- The LFSR after `n` steps from 1. -/
def lfsrAfter : Nat → BitVec 8
  | 0 => 1
  | n + 1 => lfsrStep (lfsrAfter n)

/-- `rc(t)`: the constant term after `t mod 255` steps (40_keccak.md R106). -/
def lfsrBit (t : Nat) : Bool := (lfsrAfter (t % 255)).getLsbD 0

/-- `RC[round]` by the generator of 40_keccak.md R106: bit `2^j - 1` is `rc(j + 7·round)`. -/
def generatedRoundConstant (round : Nat) : Word :=
  (List.range 7).foldl
    (fun w j => w ||| (if lfsrBit (j + 7 * round) then (1 : Word) <<< (2 ^ j - 1) else 0)) 0

/-! ### The byte view of the lane file (10_state.md R22, 41_sponge.md R121) -/

/-- `StateByte(k)` (41_sponge.md R121). -/
def stateByte (a : Lanes) (k : Nat) : Byte := byteOf (entry a (k / 8)) (k % 8)

/-- `XorStateByte(k, v)` (41_sponge.md R121). -/
def xorStateByte (a : Lanes) (k : Nat) (v : Byte) : Lanes :=
  a.setIfInBounds (k / 8) (entry a (k / 8) ^^^ (v.setWidth 64 <<< (8 * (k % 8))))

/-- The lane file whose 200 state bytes are `f 0 .. f 199` (40_keccak.md R109). -/
def lanesOfBytes (f : Nat → Byte) : Lanes := tabulate 25 fun i => le64 fun j => f (8 * i + j)

/-! ### The commands -/

/-- The lane file replaced, `RATE_USED` and `PHASE` unchanged (decision D39). -/
def State.setLanes (s : State) (a : Lanes) : State := { s with sponge := { s.sponge with lanes := a } }

/-- `KECCAK_F` (40_keccak.md R108). -/
def execKeccakF (s : State) : StepResult :=
  .next ((s.setLanes (keccakF s.sponge.lanes)).complete .ok)

/-- `LANES_LOAD` (40_keccak.md R109). -/
def execLanesLoad (s : State) : StepResult :=
  let o := s.latch.operands
  if o.srcAddr = 0 then .next (s.complete .eNull)
  else s.access [.input o.srcAddr 200]
    (.next ((s.setLanes (lanesOfBytes fun k => s.mem.read (o.srcAddr.toNat + k))).complete .ok))

end Sys2Proof.Machine
end

