-- ==== Sys2Proof/Machine/Sponge.lean ====
section
/-! DEFINITION. The SHAKE-128 sponge controller (41_sponge.md) and its four commands. -/

namespace Sys2Proof.Machine

/-! ### The sponge functions (41_sponge.md R120 to R126) -/

/-- `sponge_init()` (41_sponge.md R122). -/
def Sponge.init : Sponge := { lanes := tabulate 25 fun _ => 0, rateUsed := 0, phase := .absorb }

/-- One byte of `sponge_absorb`: XOR at `RATE_USED`, permute as soon as the rate fills (41_sponge.md R123).
`RATE_USED` is at most 167 in the absorb phase (10_state.md R24); at 168, which no run reaches there, the rate
counts as full (notes/assumptions/11.md). -/
def Sponge.absorbByte (p : Sponge) (v : Byte) : Sponge :=
  let a := xorStateByte p.lanes p.rateUsed.val v
  if h : p.rateUsed.val + 1 < 168 then { p with lanes := a, rateUsed := ⟨p.rateUsed.val + 1, by omega⟩ }
  else { p with lanes := keccakF a, rateUsed := 0 }

/-- `sponge_absorb(M)` (41_sponge.md R123). -/
def Sponge.absorb (p : Sponge) (m : List Byte) : Sponge := m.foldl Sponge.absorbByte p

/-- `sponge_finalize()` (41_sponge.md R124). -/
def Sponge.finalize (p : Sponge) : Sponge :=
  { lanes := keccakF (xorStateByte (xorStateByte p.lanes p.rateUsed.val 0x1F) 167 0x80)
    rateUsed := 0
    phase := .squeeze }

/-- One byte of `sponge_squeeze`: permute first if the rate is exhausted (41_sponge.md R125). -/
def Sponge.squeezeByte (p : Sponge) : Byte × Sponge :=
  if h : p.rateUsed.val < 168 then
    (stateByte p.lanes p.rateUsed.val, { p with rateUsed := ⟨p.rateUsed.val + 1, by omega⟩ })
  else
    let a := keccakF p.lanes
    (stateByte a 0, { p with lanes := a, rateUsed := 1 })

/-- `sponge_squeeze(n)`: `n` bytes and the sponge after them (41_sponge.md R125). -/
def Sponge.squeeze : Nat → Sponge → List Byte × Sponge
  | 0, p => ([], p)
  | n + 1, p =>
    let one := p.squeezeByte
    let rest := Sponge.squeeze n one.2
    (one.1 :: rest.1, rest.2)

/-- `SHAKE128(M, n)` (41_sponge.md R126). -/
def shake128 (m : List Byte) (n : Nat) : List Byte :=
  (Sponge.squeeze n (Sponge.init.absorb m).finalize).1

/-! ### The commands -/

/-- `SPONGE_INIT` (41_sponge.md R127). -/
def execSpongeInit (s : State) : StepResult := .next ({ s with sponge := Sponge.init }.complete .ok)

/-- `SPONGE_ABSORB` (41_sponge.md R128). -/
def execSpongeAbsorb (s : State) : StepResult :=
  let o := s.latch.operands
  if o.srcAddr = 0 ∧ o.srcLen ≠ 0 then .next (s.complete .eNull)
  else if s.sponge.phase = .squeeze then .next (s.complete .ePhase)
  else s.access [.input o.srcAddr o.srcLen.toNat]
    (.next ({ s with sponge := s.sponge.absorb (s.readBytes o.srcAddr o.srcLen.toNat) }.complete .ok))

/-- `SPONGE_FINAL` (41_sponge.md R129). -/
def execSpongeFinal (s : State) : StepResult :=
  if s.sponge.phase = .squeeze then .next (s.complete .ePhase)
  else .next ({ s with sponge := s.sponge.finalize }.complete .ok)

/-- `SPONGE_SQUEEZE` (41_sponge.md R130). -/
def execSpongeSqueeze (s : State) : StepResult :=
  let o := s.latch.operands
  if o.dstAddr = 0 ∧ o.dstLen ≠ 0 then .next (s.complete .eNull)
  else if s.sponge.phase = .absorb then .next (s.complete .ePhase)
  else s.access [.output o.dstAddr o.dstLen.toNat]
    (let out := Sponge.squeeze o.dstLen.toNat s.sponge
     .next (({ s with sponge := out.2 }.writeBytes o.dstAddr out.1).complete .ok))

end Sys2Proof.Machine
end

