-- ==== Sys2Proof/Machine/Compress.lean ====
section
/-! DEFINITION. S-box derivation, the block compressor (42_sbox_compress.md) and its three commands. -/

namespace Sys2Proof.Machine

/-! ### S-box derivation (42_sbox_compress.md R140, R141) -/

/-- `DEFAULT_KEY`: 32 bytes, each `0xCC` (00_scope.md R6). -/
def defaultKey : List Byte := List.replicate 32 0xCC

/-- The seed of R140 under a reading of the default key. -/
def seedWith (mode : Config.SeedMode) (key : List Byte) : List Byte :=
  if key.length > 0 then shake128 key 32
  else match mode with
    | .absorb => shake128 defaultKey 32
    | .literal => defaultKey

/-- A register file of `n` bytes from a byte string. -/
def bytesVector (n : Nat) (bs : List Byte) : Vector Byte n := tabulate n fun i => bs.getD i 0

/-- The table of R140: `SHAKE128(seed, 256)`, used as it comes (42_sbox_compress.md R141). -/
def deriveSboxWith (mode : Config.SeedMode) (key : List Byte) : SBox :=
  bytesVector 256 (shake128 (seedWith mode key) 256)

/-- The table `derive_sbox` writes on this hardware; it leaves the sponge as `sponge_init` does
(42_sbox_compress.md R140). -/
def deriveSbox (key : List Byte) : SBox := deriveSboxWith Config.defaultSeedMode key

/-! ### Compression (42_sbox_compress.md R142 to R148) -/

/-- Step 1, `B'[i] = SBOX[B[i]]` (42_sbox_compress.md R143). -/
def substitute (sbox : SBox) (b : Block) : Block := tabulate 64 fun i => entry sbox (entry b i).toNat

/-- Step 2, the message words (42_sbox_compress.md R144). -/
def loadWords (b : Block) : Chain := tabulate 8 fun k => le64 fun j => entry b (8 * k + j)

/-- The rotation amount of a message word: `(m >> ROT_SHIFT) ∧ 63` (42_sbox_compress.md R145). -/
def rotAmount (rotShift : Nat) (m : Word) : Nat := ((m >>> rotShift) &&& 63).toNat

/-- Step 4, the input-driven rotation mixer (42_sbox_compress.md R145). -/
def rotationMix (rotShift : Nat) (s m : Chain) : Chain :=
  tabulate 8 fun k => entry s k ^^^ rotl64 (entry m k) (rotAmount rotShift (entry m k))

/-- `S[i] <- v`. -/
def setWord (s : Chain) (i : Nat) (v : Word) : Chain := s.setIfInBounds i v

/-- One line of the quarter-mix: `S[a] <- S[a] + S[b]; S[d] <- rotl64(S[d] ⊕ S[a], r)`
(42_sbox_compress.md R146). -/
def mixLine (s : Chain) (a b d r : Nat) : Chain :=
  let s1 := setWord s a (entry s a + entry s b)
  setWord s1 d (rotl64 (entry s1 d ^^^ entry s1 a) r)

/-- `QM(S, a, b, c, d)` with the rotations 32, 24, 16, 63 (42_sbox_compress.md R146). -/
def quarterMix (s : Chain) (a b c d : Nat) : Chain :=
  let s1 := mixLine s a b d 32
  let s2 := mixLine s1 c d b 24
  let s3 := mixLine s2 a b d 16
  mixLine s3 c d b 63

/-- The simultaneous shift of the words: new `S[i]` is old `S[(i+1) mod 8]` (42_sbox_compress.md R147). -/
def shiftWords (s : Chain) : Chain := tabulate 8 fun i => entry s ((i + 1) % 8)

/-- One ARX round (42_sbox_compress.md R147). -/
def arxRound (s : Chain) : Chain :=
  let s1 := quarterMix s 0 1 2 3
  let s2 := quarterMix s1 4 5 6 7
  let s3 := quarterMix s2 0 5 2 7
  let s4 := quarterMix s3 4 1 6 3
  shiftWords s4

/-- Step 5, `R = 2` rounds (42_sbox_compress.md R147). -/
def arxRounds (s : Chain) : Chain := arxRound (arxRound s)

/-- Step 6, `H'[i] = H[i] ⊕ S[i]` (42_sbox_compress.md R148). -/
def feedForward (h s : Chain) : Chain := tabulate 8 fun i => entry h i ^^^ entry s i

/-- `compress(H, SBOX, B)` with the rotation shift as an argument (42_sbox_compress.md R142, R145). -/
def compressWith (rotShift : Nat) (h : Chain) (sbox : SBox) (b : Block) : Chain :=
  feedForward h (arxRounds (rotationMix rotShift h (loadWords (substitute sbox b))))

/-- `compress(H, SBOX, B)` of this hardware (42_sbox_compress.md R142). -/
def compress (h : Chain) (sbox : SBox) (b : Block) : Chain := compressWith Config.rotShift h sbox b

/-! ### The commands -/

/-- The chaining state replaced. -/
def State.setH (s : State) (h : Chain) : State := { s with ctx := { s.ctx with h := h } }

/-- The S-box replaced. -/
def State.setSbox (s : State) (t : SBox) : State := { s with ctx := { s.ctx with sbox := t } }

/-- `QV_COMPRESS` (42_sbox_compress.md R149). -/
def execQvCompress (s : State) : StepResult :=
  let o := s.latch.operands
  if o.srcAddr = 0 then .next (s.complete .eNull)
  else s.access [.input o.srcAddr 64]
    (.next ((s.setH (compress s.ctx.h s.ctx.sbox
      (tabulate 64 fun i => s.mem.read (o.srcAddr.toNat + i)))).complete .ok))

/-- `SBOX_LOAD` (42_sbox_compress.md R150). -/
def execSboxLoad (s : State) : StepResult :=
  let o := s.latch.operands
  if o.srcAddr = 0 then .next (s.complete .eNull)
  else s.access [.input o.srcAddr 256]
    (.next ((s.setSbox (tabulate 256 fun i => s.mem.read (o.srcAddr.toNat + i))).complete .ok))

/-- `HSTATE_LOAD` (42_sbox_compress.md R151). -/
def execHstateLoad (s : State) : StepResult :=
  let o := s.latch.operands
  if o.srcAddr = 0 then .next (s.complete .eNull)
  else s.access [.input o.srcAddr 64]
    (.next ((s.setH (tabulate 8 fun k => le64 fun j => s.mem.read (o.srcAddr.toNat + 8 * k + j))).complete .ok))

end Sys2Proof.Machine
end

