-- ==== Sys2Proof/Machine/Stream.lean ====
section
/-! DEFINITION. The streaming buffer, the padding and length encoder, and the five hash commands
(43_stream.md). -/

namespace Sys2Proof.Machine

/-! ### The streaming functions (43_stream.md R170 to R173) -/

/-- The initial value `IV[0..7]` (10_state.md R27). -/
def ivWords : Chain :=
  ⟨#[0x6A09E667F3BCC908, 0xBB67AE8584CAA73B, 0x3C6EF372FE94F82B, 0xA54FF53A5F1D36F1,
     0x510E527FADE682D1, 0x9B05688C2B3E6C1F, 0x1F83D9ABFB41BD6B, 0x5BE0CD19137E2179], rfl⟩

/-- The context after `stream_init(K)`; `BUF` is not written (43_stream.md R170). -/
def Context.streamInit (c : Context) (key : List Byte) : Context :=
  { c with h := ivWords, sbox := deriveSbox key, bufLen := 0, totalLen := 0 }

/-- Bytes of `d` copied into the buffer from index `n` on (43_stream.md R171 steps 2 and 4). -/
def fillFrom (buf : Block) (n : Nat) (d : List Byte) : Block :=
  tabulate 64 fun j => if n ≤ j ∧ j < n + d.length then d.getD (j - n) 0 else entry buf j

/-- Step 3: `q` whole blocks compressed straight from the data; the chaining state and the bytes left
(43_stream.md R171). -/
def compressBlocks (sbox : SBox) : Nat → Chain → List Byte → Chain × List Byte
  | 0, h, d => (h, d)
  | q + 1, h, d => compressBlocks sbox q (compress h sbox (bytesVector 64 (d.take 64))) (d.drop 64)

/-- Steps 3 and 4, with the buffer empty: whole blocks, then the tail into the buffer (43_stream.md R171). -/
def Context.absorbBlocks (c : Context) (d : List Byte) : Context :=
  let r := compressBlocks c.sbox (d.length / 64) c.h d
  { c with h := r.1, buf := fillFrom c.buf 0 r.2, bufLen := ⟨r.2.length % 64, Nat.mod_lt _ (by decide)⟩ }

/-- Steps 2 to 4 (43_stream.md R171): if the buffer holds bytes it is topped up first; when that fills it, it is
compressed and the rest of the data follows. -/
def Context.absorbData (c : Context) (d : List Byte) : Context :=
  if c.bufLen.val > 0 then
    if h : c.bufLen.val + d.length < 64 then
      { c with buf := fillFrom c.buf c.bufLen.val d, bufLen := ⟨c.bufLen.val + d.length, h⟩ }
    else
      let take := 64 - c.bufLen.val
      let full := fillFrom c.buf c.bufLen.val (d.take take)
      { c with h := compress c.h c.sbox full, buf := full, bufLen := 0 }.absorbBlocks (d.drop take)
  else c.absorbBlocks d

/-- `stream_update(D)` (43_stream.md R171): step 1 adds the length modulo 2^64. -/
def Context.streamUpdate (c : Context) (d : List Byte) : Context :=
  { c with totalLen := c.totalLen + BitVec.ofNat 64 d.length }.absorbData d

/-- The buffer with `0x80` at `BUF_LEN` and zeros above it (43_stream.md R173 steps 1 and 2). -/
def padBlock (buf : Block) (n : Nat) : Block :=
  tabulate 64 fun j => if j < n then entry buf j else if j = n then 0x80 else 0

/-- `BUF[56..63] <- bytes64((TOTAL_LEN * 8) mod 2^64)` (43_stream.md R173 step 3). -/
def withLength (b : Block) (totalLen : Word) : Block :=
  tabulate 64 fun j => if j < 56 then entry b j else byteOf (totalLen * 8) (j - 56)

/-- Steps 1 to 4: the chaining state after the final compressions (43_stream.md R173). -/
def Context.finalChain (c : Context) : Chain :=
  let padded := padBlock c.buf c.bufLen.val
  if c.bufLen.val + 1 > 56 then
    compress (compress c.h c.sbox padded) c.sbox (withLength (tabulate 64 fun _ => 0) c.totalLen)
  else compress c.h c.sbox (withLength padded c.totalLen)

/-- `bytes64(H[0]) ‖ bytes64(H[1]) ‖ bytes64(H[2]) ‖ bytes64(H[3])` (43_stream.md R173 step 5). -/
def digestBytes (h : Chain) : List Byte :=
  bytes64 (entry h 0) ++ bytes64 (entry h 1) ++ bytes64 (entry h 2) ++ bytes64 (entry h 3)

/-- Steps 1 to 5: the digest of the context (43_stream.md R173). -/
def Context.digest (c : Context) : List Byte := digestBytes c.finalChain

/-- Step 6: the zeroed context (43_stream.md R173). -/
def Context.zero : Context :=
  { h := tabulate 8 fun _ => 0, sbox := tabulate 256 fun _ => 0, buf := tabulate 64 fun _ => 0,
    bufLen := 0, totalLen := 0 }

/-! ### The same on the machine -/

/-- `stream_init(K, klen)`: the context, and the sponge cleared by the derivation (43_stream.md R170,
42_sbox_compress.md R140). -/
def State.streamInit (s : State) (key : List Byte) : State :=
  { s with ctx := s.ctx.streamInit key, sponge := Sponge.init }

/-- `stream_update(D, n)` (43_stream.md R171). -/
def State.streamUpdate (s : State) (d : List Byte) : State := { s with ctx := s.ctx.streamUpdate d }

/-- `stream_final(dst)`: the digest to memory, then the context zeroed (43_stream.md R173). -/
def State.streamFinal (s : State) (dst : Addr) : State :=
  { s.writeBytes dst s.ctx.digest with ctx := Context.zero }

/-! ### The commands -/

/-- `QV_INIT` (43_stream.md R174). -/
def execQvInit (s : State) : StepResult :=
  let o := s.latch.operands
  if o.keyAddr = 0 ∧ o.keyLen ≠ 0 then .next (s.complete .eNull)
  else s.access [.input o.keyAddr o.keyLen.toNat]
    (.next ((s.streamInit (s.readBytes o.keyAddr o.keyLen.toNat)).complete .ok))

/-- `QV_UPDATE` (43_stream.md R175). -/
def execQvUpdate (s : State) : StepResult :=
  let o := s.latch.operands
  if o.srcAddr = 0 ∧ o.srcLen ≠ 0 then .next (s.complete .eNull)
  else s.access [.input o.srcAddr o.srcLen.toNat]
    (.next ((s.streamUpdate (s.readBytes o.srcAddr o.srcLen.toNat)).complete .ok))

/-- `QV_FINAL` (43_stream.md R176). -/
def execQvFinal (s : State) : StepResult :=
  let o := s.latch.operands
  if o.dstAddr = 0 then .next (s.complete .eNull)
  else s.access [.output o.dstAddr 32] (.next ((s.streamFinal o.dstAddr).complete .ok))

/-- The one-shot hash of 43_stream.md R177, shared by `QV_HASH` and its alias. -/
def oneShotHash (s : State) : StepResult :=
  let o := s.latch.operands
  if o.dstAddr = 0 then .next (s.complete .eNull)
  else if o.srcAddr = 0 ∧ o.srcLen ≠ 0 then .next (s.complete .eNull)
  else if o.keyAddr = 0 ∧ o.keyLen ≠ 0 then .next (s.complete .eNull)
  else s.access
    [.input o.keyAddr o.keyLen.toNat, .input o.srcAddr o.srcLen.toNat, .output o.dstAddr 32]
    (.next ((((s.streamInit (s.readBytes o.keyAddr o.keyLen.toNat)).streamUpdate
      (s.readBytes o.srcAddr o.srcLen.toNat)).streamFinal o.dstAddr).complete .ok))

/-- `QV_HASH` (43_stream.md R177). -/
def execQvHash (s : State) : StepResult := oneShotHash s

/-- `VORTEX_HASH`, the legacy alias (43_stream.md R178). -/
def execVortexHash (s : State) : StepResult := oneShotHash s

end Sys2Proof.Machine
end

