-- ==== Sys2Proof/Machine/Dispatch.lean ====
section
/-! DEFINITION. One arm per command (30_encoding.md R88). -/

namespace Sys2Proof.Machine

def exec (i : Instr) (s : State) : Host.Outcome State Fault Refusal :=
  match i with
  -- 43_stream.md
  | .qvInit => Sys2Proof.Machine.execQvInit s
  | .qvUpdate => Sys2Proof.Machine.execQvUpdate s
  | .qvFinal => Sys2Proof.Machine.execQvFinal s
  | .qvHash => Sys2Proof.Machine.execQvHash s
  | .vortexHash => Sys2Proof.Machine.execVortexHash s
  -- 40_keccak.md
  | .keccakF => Sys2Proof.Machine.execKeccakF s
  -- 41_sponge.md
  | .spongeInit => Sys2Proof.Machine.execSpongeInit s
  | .spongeAbsorb => Sys2Proof.Machine.execSpongeAbsorb s
  | .spongeFinal => Sys2Proof.Machine.execSpongeFinal s
  | .spongeSqueeze => Sys2Proof.Machine.execSpongeSqueeze s
  -- 40_keccak.md
  | .lanesLoad => Sys2Proof.Machine.execLanesLoad s
  -- 42_sbox_compress.md
  | .qvCompress => Sys2Proof.Machine.execQvCompress s
  | .sboxLoad => Sys2Proof.Machine.execSboxLoad s
  | .hstateLoad => Sys2Proof.Machine.execHstateLoad s

end Sys2Proof.Machine
end

