-- ==== Sys2Proof/Machine/Engine.lean ====
section
/-! DEFINITION. The engine agent's one move (10_state.md R52, 30_encoding.md R88). -/

namespace Sys2Proof.Machine

/-- The output ranges of the latched command become stale for a host that is not coherent (20_memory.md R76). -/
def State.noteOutputs (s t : State) : State :=
  if s.platform.coherent then t else { t with stale := s.writeRanges ++ t.stale }

/-- What `Execute(LATCH)` and completion give: an illegal word completes with `E_ILLEGAL` and changes no other
state (30_encoding.md R83, 60_exceptions.md R203); a command runs. -/
def executeLatched (s : State) : StepResult :=
  match decodeWord s.latch.op with
  | .error _ => .next (s.complete .eIllegal)
  | .ok i => exec i s

/-- The engine step (10_state.md R52). -/
def engineMove (s : State) : StepResult :=
  match executeLatched s with
  | .next t => .next (s.noteOutputs t)
  | .fault f => .fault f
  | .refused r => .refused r

end Sys2Proof.Machine
end

