-- ==== Sys2Proof/Machine/Flags.lean ====
section
/-! DEFINITION. The flags of the block: the `STATUS` word (10_state.md R36), what a `CMD` write does to it
(10_state.md R35, 60_exceptions.md R210) and what a `STATUS` write does (10_state.md R36).  Completion is
`State.complete` of Machine/Ops.lean. -/

namespace Sys2Proof.Machine

/-- A flag as bit `i` of a word. -/
def flagBit (b : Bool) (i : Nat) : Word32 := (if b then 1 else 0) <<< i

/-- `STATUS` as read: `BUSY` bit 0, `DONE` bit 1, `OVERRUN` bit 2, the rest 0 (10_state.md R36). -/
def Status.word (t : Status) : Word32 := flagBit t.busy 0 ||| flagBit t.isDone 1 ||| flagBit t.overrun 2

/-- A host write of `w` to `CMD` (10_state.md R35): dropped with `OVERRUN` while busy (60_exceptions.md R210),
accepted otherwise.  `RESULT` does not change. -/
def State.writeCmd (s : State) (w : Word32) : State :=
  if s.status.busy then { s with status := { s.status with overrun := true } }
  else { s.latchCommand w with status := { s.status with busy := true, isDone := false } }

/-- A host write of `w` to `STATUS`: `if w[2] = 1: OVERRUN <- 0` and nothing else (10_state.md R36). -/
def State.writeStatus (s : State) (w : Word32) : State :=
  if w.getLsbD 2 then { s with status := { s.status with overrun := false } } else s

end Sys2Proof.Machine
end

