-- ==== Sys2Proof/Machine/RegBlock.lean ====
section
/-! DEFINITION. The register block as the host sees it (10_state.md R34 to R48): what each offset reads as, what a
write to it does. -/

namespace Sys2Proof.Machine

/-! ### Constants (10_state.md R40) -/

/-- `VERSION0`: the bytes `'1' '.' '0' '.'` (10_state.md R40). -/
def version0 : Word32 := 0x2E302E31

/-- `VERSION1`: the byte `'0'` and three zero bytes (10_state.md R40). -/
def version1 : Word32 := 0x00000030

/-! ### The registers that show engine state (10_state.md R41 to R46) -/

/-- `PHASE` as a bit (10_state.md R25, R41). -/
def Phase.bit : Phase → Word32
  | .absorb => 0
  | .squeeze => 1

/-- `SPONGE_CTRL`: `RATE_USED` in bits 7:0, `PHASE` in bit 8 (10_state.md R41). -/
def Sponge.ctrlWord (p : Sponge) : Word32 := BitVec.ofNat 32 p.rateUsed.val ||| (p.phase.bit <<< 8)

/-- Register `j` of the `LANE` window (10_state.md R43). -/
def laneReg (a : Lanes) (j : Nat) : Word32 := le32 fun b => stateByte a (4 * j + b)

/-- Register `j` of the `HSTATE` window (10_state.md R44). -/
def hstateReg (h : Chain) (j : Nat) : Word32 :=
  if j % 2 = 0 then loHalf (entry h (j / 2)) else hiHalf (entry h (j / 2))

/-- Register `j` of the `SBOXW` window (10_state.md R45). -/
def sboxReg (t : SBox) (j : Nat) : Word32 := le32 fun b => entry t (4 * j + b)

/-- Register `j` of the `BUFW` window (10_state.md R46). -/
def bufReg (buf : Block) (j : Nat) : Word32 := le32 fun b => entry buf (4 * j + b)

/-- The registers of R41 to R46, which are unspecified while `BUSY = 1` (10_state.md R48); none at any other
offset. -/
def State.engineReg (s : State) (off : Nat) : Option Word32 :=
  if off = 0x060 then some s.sponge.ctrlWord
  else if off = 0x064 then some (BitVec.ofNat 32 s.ctx.bufLen.val)
  else if off = 0x068 then some (loHalf s.ctx.totalLen)
  else if off = 0x06C then some (hiHalf s.ctx.totalLen)
  else if 0x100 ≤ off ∧ off ≤ 0x1C4 then some (laneReg s.sponge.lanes ((off - 0x100) / 4))
  else if 0x200 ≤ off ∧ off ≤ 0x23C then some (hstateReg s.ctx.h ((off - 0x200) / 4))
  else if 0x300 ≤ off ∧ off ≤ 0x3FC then some (sboxReg s.ctx.sbox ((off - 0x300) / 4))
  else if 0x400 ≤ off ∧ off ≤ 0x43C then some (bufReg s.ctx.buf ((off - 0x400) / 4))
  else none

/-- Every other register of the map, defined at all times (10_state.md R48): `CMD` reads 0 (R35), a reserved
offset reads 0 (R47). -/
def State.plainReg (s : State) (off : Nat) : Word32 :=
  match off with
  | 0x004 => s.status.word
  | 0x008 => s.result
  | 0x010 => loHalf s.operands.srcAddr
  | 0x014 => hiHalf s.operands.srcAddr
  | 0x018 => loHalf s.operands.srcLen
  | 0x01C => hiHalf s.operands.srcLen
  | 0x020 => loHalf s.operands.keyAddr
  | 0x024 => hiHalf s.operands.keyAddr
  | 0x028 => loHalf s.operands.keyLen
  | 0x02C => hiHalf s.operands.keyLen
  | 0x030 => loHalf s.operands.dstAddr
  | 0x034 => hiHalf s.operands.dstAddr
  | 0x038 => loHalf s.operands.dstLen
  | 0x03C => hiHalf s.operands.dstLen
  | 0x040 => s.legacy0
  | 0x044 => s.legacy1
  | 0x050 => version0
  | 0x054 => version1
  | _ => 0

/-- A 32-bit read at a 4-byte-aligned offset: the value, or none where it is unspecified (10_state.md R48). -/
def State.readReg (s : State) (off : Nat) : Option Word32 :=
  match s.engineReg off with
  | some v => if s.status.busy then none else some v
  | none => some (s.plainReg off)

/-- The operand registers with another value. -/
def State.setOperands (s : State) (o : Operands) : State := { s with operands := o }

/-- A 32-bit write at a 4-byte-aligned offset (10_state.md R35 to R39); a read-only or reserved offset ignores it
(10_state.md R47). -/
def State.writeReg (s : State) (off : Nat) (v : Word32) : State :=
  let o := s.operands
  match off with
  | 0x000 => s.writeCmd v
  | 0x004 => s.writeStatus v
  | 0x010 => s.setOperands { o with srcAddr := setLoHalf o.srcAddr v }
  | 0x014 => s.setOperands { o with srcAddr := setHiHalf o.srcAddr v }
  | 0x018 => s.setOperands { o with srcLen := setLoHalf o.srcLen v }
  | 0x01C => s.setOperands { o with srcLen := setHiHalf o.srcLen v }
  | 0x020 => s.setOperands { o with keyAddr := setLoHalf o.keyAddr v }
  | 0x024 => s.setOperands { o with keyAddr := setHiHalf o.keyAddr v }
  | 0x028 => s.setOperands { o with keyLen := setLoHalf o.keyLen v }
  | 0x02C => s.setOperands { o with keyLen := setHiHalf o.keyLen v }
  | 0x030 => s.setOperands { o with dstAddr := setLoHalf o.dstAddr v }
  | 0x034 => s.setOperands { o with dstAddr := setHiHalf o.dstAddr v }
  | 0x038 => s.setOperands { o with dstLen := setLoHalf o.dstLen v }
  | 0x03C => s.setOperands { o with dstLen := setHiHalf o.dstLen v }
  | 0x040 => { s with legacy0 := v }
  | 0x044 => { s with legacy1 := v }
  | _ => s

end Sys2Proof.Machine
end

