-- ==== Sys2Proof/Machine/HostAgent.lean ====
section
/-! DEFINITION. The host agent's moves (10_state.md R20): accesses to the register block and to host memory, each
one atomic transition (60_exceptions.md R212), with the hazards of 20_memory.md R67, R73, R76 and
70_reset_and_hazards.md R235 to R238. -/

namespace Sys2Proof.Machine

/-! ### Shapes and places of host accesses -/

/-- A naturally aligned 32-bit access to the register block, the only shape with a meaning (20_memory.md R67). -/
def registerShape (width : AccessWidth) (off : BitVec 12) : Bool := width == .w32 && off.toNat % 4 == 0

/-- Host address `a` lies in the register block (10_state.md R34). -/
def Platform.inBlock (p : Platform) (a : Addr) : Bool := Range.contains ⟨p.base.toNat, 4096⟩ a.toNat

/-- Host address `a` is plain memory for the host: neither absent nor a device (20_memory.md R60, R70). -/
def Platform.hostMemoryAt (p : Platform) (a : Addr) : Bool :=
  !p.regions.any (fun g => (g.kind == .absent || g.kind == .device) && g.span.contains a.toNat)

/-! ### Races with the running command (20_memory.md R73, 70_reset_and_hazards.md R236) -/

/-- The running command writes byte `a`. -/
def State.commandWrites (s : State) (a : Addr) : Bool :=
  s.status.busy && s.writeRanges.any (fun r => r.contains a.toNat)

/-- The running command reads byte `a`. -/
def State.commandReads (s : State) (a : Addr) : Bool :=
  s.status.busy && s.readRanges.any (fun r => r.contains a.toNat)

/-! ### Cache maintenance (20_memory.md R76) -/

/-- On a platform that is not coherent, the input ranges of the latched command have all been cleaned. -/
def State.inputsCleaned (s : State) : Bool :=
  s.platform.coherent || s.readRanges.all (fun r => r.coveredBy s.cleaned)

/-- On a platform that is not coherent, byte `a` is an output byte that has not been invalidated. -/
def State.staleAt (s : State) (a : Addr) : Bool :=
  !s.platform.coherent && s.stale.any (fun r => r.contains a.toNat)

/-! ### The moves -/

/-- A value the host has read, logged. -/
def State.logRead (s : State) (r : HostRead) : State := { s with hostReads := r :: s.hostReads }

/-- `WR`: a host write to the register block.  An accepted command whose input ranges were not cleaned on a
platform that is not coherent is refused (20_memory.md R76). -/
def hostRegWrite (s : State) (off : BitVec 12) (v : Word32) : StepResult :=
  let t := s.writeReg off.toNat v
  if off = 0 ∧ s.status.busy = false ∧ t.inputsCleaned = false then .refused .cleanMissing else .next t

/-- `RD`: a host read of the register block, with no side effect on it (20_memory.md R69).  An unspecified value is
drawn (10_state.md R48). -/
def hostRegRead (s : State) (off : BitVec 12) : State :=
  match s.readReg off.toNat with
  | some v => s.logRead (.reg off v)
  | none => { s.logRead (.reg off (Config.freeWord s.draws)) with draws := s.draws + 1 }

/-- A host store of one byte: a byte access to the register block is refused (20_memory.md R67), and so is one that
races the running command (20_memory.md R73).  With `BUSY = 0` it follows the last command's writes, whether or not the
host has read `STATUS` since.  DESIGN CHOICE (notes/assumptions/23.md); unsafe. -/
def hostMemWrite (s : State) (a : Addr) (v : Byte) : StepResult :=
  if s.platform.inBlock a then .refused .registerAccessShape
  else if s.platform.hostMemoryAt a = false then .refused .notHostMemory
  else if s.commandReads a || s.commandWrites a then .refused .operandRace
  else .next { s with mem := s.mem.write a.toNat v, cleaned := minusAll s.cleaned ⟨a.toNat, 1⟩ }

/-- A host load of one byte (20_memory.md R67, R73, R76).  With `BUSY = 0` it reads what the last command wrote, whether or
not the host has read `STATUS` since.  DESIGN CHOICE (notes/assumptions/23.md); unsafe: 20_memory.md R73 (2) promises
that only after a read of `STATUS` that returns `BUSY = 0` and `DONE = 1`. -/
def hostMemRead (s : State) (a : Addr) : StepResult :=
  if s.platform.inBlock a then .refused .registerAccessShape
  else if s.platform.hostMemoryAt a = false then .refused .notHostMemory
  else if s.commandWrites a then .refused .operandRace
  else if s.staleAt a then .refused .invalidateMissing
  else .next (s.logRead (.mem a (s.mem.read a.toNat)))

/-- One host access.  `rest` is what the host does after it; `WAIT` reads `STATUS` and stays at the head while
`BUSY = 1` (30_encoding.md R85). -/
def hostMove (s : State) (op : HostOp) (rest : List HostOp) : StepResult :=
  let s' := { s with hostOps := rest }
  match op with
  | .regWrite width off v =>
    if registerShape width off then hostRegWrite s' off v else .refused .registerAccessShape
  | .regRead width off =>
    if registerShape width off then .next (hostRegRead s' off) else .refused .registerAccessShape
  | .waitIdle => .next (hostRegRead (if s.status.busy then s else s') 0x004)
  | .memWrite a v => hostMemWrite s' a v
  | .memRead a => hostMemRead s' a
  | .cacheClean r => .next { s' with cleaned := r :: s'.cleaned }
  | .cacheInvalidate r => .next { s' with stale := minusAll s'.stale r }

end Sys2Proof.Machine
end

