-- ==== Sys2Proof/Machine/Reset.lean ====
section
/-! DEFINITION. The reset input (70_reset_and_hazards.md R230 to R232). -/

namespace Sys2Proof.Machine

/-- `n` free bytes, drawn from the counter's value `k` on (70_reset_and_hazards.md R231). -/
def freeBytes (k n : Nat) : List Byte := tabulateFrom Config.freeByte n k

/-- The bytes of a range with any value; a range ends with the address space (70_reset_and_hazards.md R231). -/
def State.scrambleRange (s : State) (r : Range) : State :=
  let n := min r.len (2 ^ 64 - r.base)
  { s with mem := s.mem.writeBytes r.base (freeBytes s.draws n), draws := s.draws + n }

/-- The output bytes of a command that reset abandons (70_reset_and_hazards.md R231). -/
def State.abandonCommand (s : State) : State :=
  if s.status.busy then s.writeRanges.foldl State.scrambleRange s else s

/-- The block's registers at their reset values (10_state.md R50). -/
def State.resetBlock (s : State) : State :=
  { s with
    sponge := Sponge.reset, ctx := Context.reset, status := Status.reset, result := 0,
    operands := Operands.reset, legacy0 := 0, legacy1 := 0, latch := Latch.reset }

/-- Reset applied: a running command is abandoned and never completes, and every register of the block takes its
reset value in one step (70_reset_and_hazards.md R230, R231).  Host memory, the platform and the host agent are
not the block's. -/
def applyReset (s : State) : State := s.abandonCommand.resetBlock

end Sys2Proof.Machine
end

