-- ==== Sys2Proof/Machine/Schedule.lean ====
section
/-! DEFINITION. Whose transition is taken (60_exceptions.md R212). -/

namespace Sys2Proof.Machine

/-- The host's move, if it has one; else nothing happens. -/
def hostTurn (s : State) : StepResult :=
  match s.hostOps with
  | [] => .next s
  | op :: rest => hostMove s op rest

/-- The engine's move, if `BUSY = 1`; else nothing happens (10_state.md R52). -/
def engineTurn (s : State) : StepResult :=
  if s.status.busy then engineMove s else .next s

/-- The transition when no turn is prescribed: the engine's if it has one, else the host's.  A stuck engine has no
step, so the host goes on (20_memory.md R63); when the host too is done, the run never finishes
(70_reset_and_hazards.md R244) and the stop is the engine's. -/
def defaultTurn (s : State) : StepResult :=
  if s.status.busy then
    match engineMove s with
    | .fault f => if s.hostOps = [] then .fault f else hostTurn s
    | r => r
  else hostTurn s

/-- The transition `State.turns` asks for (60_exceptions.md R212). -/
def takeTurn (s : State) : StepResult :=
  match s.turns with
  | [] => defaultTurn s
  | .engine :: ts => engineTurn { s with turns := ts }
  | .host :: ts => hostTurn { s with turns := ts }
  | .reset :: ts => .next (applyReset { s with turns := ts })

/-- A command word accepted as by a write to `CMD` (10_state.md R35), with the engine's turn next. -/
def State.acceptNext (s : State) (w : Word32) : State :=
  { s.latchCommand w with
    status := { s.status with busy := true, isDone := false }, turns := .engine :: s.turns }

end Sys2Proof.Machine
end

