-- ==== Sys2Proof/Machine/Step.lean ====
section
/-! DEFINITION. One step of the machine: one atomic transition of one agent (60_exceptions.md R212). -/

namespace Sys2Proof.Machine

/-- One transition. -/
def step (s : State) : Host.Outcome State Fault Refusal := takeTurn s

/-- The table's instruction accepted as the running command: the latch filled as by an accepting `CMD` write and
the engine's turn next (notes/assumptions/16.md). -/
def State.withFetchWord (s : State) (nbits w : Nat) : State := s.acceptNext (tableWord nbits w)

end Sys2Proof.Machine
end

