-- ==== Sys2Proof/Machine/Pseudo.lean ====
section
/-! DEFINITION. The host notation of 30_encoding.md R85 and the pseudo-instructions of R86, as host accesses. -/

namespace Sys2Proof.Machine.Pseudo

/-- `WR <reg>, <imm32>` (30_encoding.md R85), the register given by its offset. -/
def wr (off : BitVec 12) (v : Word32) : HostOp := .regWrite .w32 off v

/-- `RD <reg> -> <name>` (30_encoding.md R85). -/
def rd (off : BitVec 12) : HostOp := .regRead .w32 off

/-- `SET <op>, <imm64>` for the operand whose `_LO` register is at `off`: `_LO` first, then `_HI`
(30_encoding.md R85). -/
def set64 (off : BitVec 12) (v : Word) : List HostOp := [wr off (loHalf v), wr (off + 4) (hiHalf v)]

/-- `<MNEMONIC>`: `WR CMD, <match word>` (30_encoding.md R85). -/
def issue (i : Instr) : HostOp := wr 0x000 (encode i)

/-- `MEM <addr>: <bytes>` as host stores (30_encoding.md R85). -/
def memBytes (a : Addr) : List Byte → List HostOp
  | [] => []
  | v :: vs => .memWrite a v :: memBytes (a + 1) vs

/-- `qvortex_init key, key_len` (30_encoding.md R86). -/
def qvortexInit (key : Addr) (keyLen : Word) : List HostOp :=
  set64 0x020 key ++ set64 0x028 keyLen ++ [issue .qvInit, .waitIdle, rd 0x008]

/-- `qvortex_update data, len` (30_encoding.md R86). -/
def qvortexUpdate (data : Addr) (len : Word) : List HostOp :=
  set64 0x010 data ++ set64 0x018 len ++ [issue .qvUpdate, .waitIdle, rd 0x008]

/-- `qvortex_final out` (30_encoding.md R86). -/
def qvortexFinal (out : Addr) : List HostOp :=
  set64 0x030 out ++ [issue .qvFinal, .waitIdle, rd 0x008]

/-- The expansion shared by `qvortex_hash` and `vortex_hash` (30_encoding.md R86). -/
def hashWith (i : Instr) (data : Addr) (len : Word) (r1 r2 : Word32) (key : Addr) (keyLen : Word)
    (out : Addr) : List HostOp :=
  set64 0x010 data ++ set64 0x018 len ++ [wr 0x040 r1, wr 0x044 r2] ++ set64 0x020 key ++ set64 0x028 keyLen ++
    set64 0x030 out ++ [issue i, .waitIdle, rd 0x008]

/-- `qvortex_hash data, len, r1, r2, key, key_len, out` (30_encoding.md R86). -/
def qvortexHash := hashWith .qvHash

/-- `vortex_hash data, len, r1, r2, key, key_len, out` (30_encoding.md R86). -/
def vortexHash := hashWith .vortexHash

/-- `qvortex_version` (30_encoding.md R86). -/
def qvortexVersion : List HostOp := [rd 0x050, rd 0x054]

/-- The version string: the bytes of `v0` then `v1`, little-endian, up to the first zero byte
(30_encoding.md R86, 10_state.md R40). -/
def versionBytes (v0 v1 : Word32) : List Byte := (wordBytes v0 ++ wordBytes v1).takeWhile (fun b => b != 0)

/-- `shake128 msg, len, out, outlen` (30_encoding.md R86). -/
def shake128 (msg : Addr) (len : Word) (out : Addr) (outlen : Word) : List HostOp :=
  [issue .spongeInit, .waitIdle] ++ set64 0x010 msg ++ set64 0x018 len ++ [issue .spongeAbsorb, .waitIdle,
    issue .spongeFinal, .waitIdle] ++ set64 0x030 out ++ set64 0x038 outlen ++
    [issue .spongeSqueeze, .waitIdle, rd 0x008]

/-- `status`: `RESULT` read as a signed 32-bit integer (30_encoding.md R86, 60_exceptions.md R201). -/
def statusValue (v : Word32) : Int := v.toInt

end Sys2Proof.Machine.Pseudo
end

