-- ==== Sys2Proof/Safety.lean ====
section
/-! DEFINITION. The terms claims use: the invariant of the machine's states, admitted operand ranges, what
completion leaves alone, finished runs. -/

namespace Sys2Proof.Machine

/-- `RESULT` holds one of the codes a command can complete with; `E_ALLOC` is never one
(60_exceptions.md R201, R205). -/
def State.resultListed (s : State) : Prop :=
  s.result = ResultCode.ok.bits ∨ s.result = ResultCode.eNull.bits ∨ s.result = ResultCode.eIllegal.bits ∨
    s.result = ResultCode.ePhase.bits

/-- What every state of a run keeps: host memory in canonical form; `BUSY` and `DONE` never both 1
(10_state.md R36); a listed result code (60_exceptions.md R201, R205); `RATE_USED <= 167` in the absorb phase
(10_state.md R24). -/
structure State.Inv (s : State) : Prop where
  memory  : s.mem.wf = true
  flags   : ¬ (s.status.busy = true ∧ s.status.isDone = true)
  result  : s.resultListed
  rate    : s.sponge.phase = .absorb → s.sponge.rateUsed.val ≤ 167

/-- Every memory operand of command `i` is one the platform admits: it does not wrap, the engine may access every
byte of it, and no byte belongs to a device (20_memory.md R63, R69). -/
def State.Admits (s : State) (i : Instr) : Prop :=
  s.platform.stuckOn (footprint i s.latch.operands) = none ∧
    (footprint i s.latch.operands).any s.platform.hasDevice = false

/-- No check of command `i` fails (60_exceptions.md R202, R204, R206). -/
def State.Accepts (s : State) (i : Instr) : Prop :=
  nullFault i s.latch.operands = false ∧ phaseFault i s.sponge.phase = false

/-- Completion with a code, and everything no command changes: `RESULT` holds the code, `BUSY` is 0 and `DONE` is 1
(60_exceptions.md R208); `OVERRUN`, the operand registers, `LEGACY0/1`, `LATCH`, the platform, the host agent and
the model's own bookkeeping are as before (10_state.md R38, R39, R49; 60_exceptions.md R210). -/
structure State.Finishes (s t : State) (code : ResultCode) : Prop where
  result    : t.result = code.bits
  busy      : t.status.busy = false
  isDone    : t.status.isDone = true
  overrun   : t.status.overrun = s.status.overrun
  operands  : t.operands = s.operands
  legacy0   : t.legacy0 = s.legacy0
  legacy1   : t.legacy1 = s.legacy1
  latch     : t.latch = s.latch
  platform  : t.platform = s.platform
  hostOps   : t.hostOps = s.hostOps
  turns     : t.turns = s.turns
  hostReads : t.hostReads = s.hostReads
  cleaned   : t.cleaned = s.cleaned
  stale     : t.stale = s.stale
  draws     : t.draws = s.draws

/-- Byte `c` lies in the range. -/
def Range.Has (r : Range) (c : Nat) : Prop := r.base ≤ c ∧ c < r.base + r.len

/-- Byte `c` lies in some range of the list. -/
def InSome (rs : List Range) (c : Nat) : Prop := ∃ r ∈ rs, r.Has c

/-- Every byte of host memory reads as before. -/
def State.SameMemory (s t : State) : Prop := ∀ c, t.mem.read c = s.mem.read c

/-- Every byte of host memory outside the `n` bytes at `a` reads as before. -/
def State.SameMemoryOutside (s t : State) (a n : Nat) : Prop :=
  ∀ c, c < a ∨ a + n ≤ c → t.mem.read c = s.mem.read c

/-- Every register of the context holds zero (43_stream.md R173 step 6, 10_state.md R50). -/
def Context.IsZero (c : Context) : Prop :=
  (∀ i, i < 8 → entry c.h i = 0) ∧ (∀ i, i < 256 → entry c.sbox i = 0) ∧ (∀ i, i < 64 → entry c.buf i = 0) ∧
    c.bufLen = 0 ∧ c.totalLen = 0

/-- The sponge is as `sponge_init` leaves it (41_sponge.md R122). -/
def Sponge.IsFresh (p : Sponge) : Prop :=
  (∀ i, i < 25 → entry p.lanes i = 0) ∧ p.rateUsed = 0 ∧ p.phase = .absorb

/-- A stream absorbs `pieces`, one per completed `QV_UPDATE`, from the context of `s` to that of `t`; between two
commands anything may change but the context (43_stream.md R179). -/
def State.StreamsTo (s : State) : List (List Byte) → State → Prop
  | [], t => t.ctx = s.ctx
  | p :: ps, t => ∃ u v : State, u.ctx = s.ctx ∧
      u.mem.readBytes u.latch.operands.srcAddr.toNat u.latch.operands.srcLen.toNat = p ∧
      exec .qvUpdate u = .next v ∧ v.result = 0 ∧ v.StreamsTo ps t

/-- The run is finished: the host has executed its last step and `BUSY = 0` (70_reset_and_hazards.md R244). -/
def State.Finished (s : State) : Prop := s.hostOps = [] ∧ s.status.busy = false

end Sys2Proof.Machine
end

