-- ==== Sys2Proof/Certificates/Slice0/Obligations.lean ====
section
/-! DEFINITION. The statements for the provers, each from the numbered rules of spec/. -/

open Sys2Proof Sys2Proof.Machine

/-! ### Encoding (30_encoding.md) -/

/-- Each command word has one meaning: the decoder answers a command exactly on its match word
(30_encoding.md R82, R84). -/
def Obligations.DecodeInvertsEncode : Prop :=
  ∀ (w : Word32) (i : Instr), decodeWord w = .ok i ↔ w = encode i

/-- The full match words of 30_encoding.md R82. -/
def Obligations.MatchWordsDecode : Prop :=
  decodeWord 0x00000001 = .ok .qvInit ∧ decodeWord 0x00000002 = .ok .qvUpdate ∧
  decodeWord 0x00000003 = .ok .qvFinal ∧ decodeWord 0x00000004 = .ok .qvHash ∧
  decodeWord 0x00000005 = .ok .vortexHash ∧ decodeWord 0x00000010 = .ok .keccakF ∧
  decodeWord 0x00000011 = .ok .spongeInit ∧ decodeWord 0x00000012 = .ok .spongeAbsorb ∧
  decodeWord 0x00000013 = .ok .spongeFinal ∧ decodeWord 0x00000014 = .ok .spongeSqueeze ∧
  decodeWord 0x00000015 = .ok .lanesLoad ∧ decodeWord 0x00000020 = .ok .qvCompress ∧
  decodeWord 0x00000021 = .ok .sboxLoad ∧ decodeWord 0x00000022 = .ok .hstateLoad

/-- Every word that 30_encoding.md R83 calls illegal completes with `E_ILLEGAL` and changes no other state
(60_exceptions.md R203). -/
def Obligations.IllegalWordChangesNothing : Prop :=
  ∀ (s : State) (w : Word32), s.latch.op = w →
    (w.extractLsb' 8 24 ≠ 0 ∨
      (let op := (w.extractLsb' 0 8).toNat
       op = 0x00 ∨ (0x06 ≤ op ∧ op ≤ 0x0F) ∨ (0x16 ≤ op ∧ op ≤ 0x1F) ∨ (0x23 ≤ op ∧ op ≤ 0xFF))) →
    ∃ t, executeLatched s = .next t ∧ s.Finishes t .eIllegal ∧ t.result = 0xFFFFFFFD ∧
      t.sponge = s.sponge ∧ t.ctx = s.ctx ∧ t.mem = s.mem

/-! ### The step (10_state.md R52, 60_exceptions.md R212) -/

/-- When `BUSY = 1` and the turn is the engine's, or no turn is prescribed, the step is the decoded command's `exec`
and nothing else on a coherent platform (10_state.md R52); of an illegal word it is completion with `E_ILLEGAL` and
nothing else on any platform (30_encoding.md R83, 60_exceptions.md R203).  Two parts are the model's choice: that the
engine moves first when no turn is prescribed (notes/assumptions/3.md), and that on a platform that is not coherent the
command's output ranges are put on the model's list `stale` (notes/assumptions/14.md). -/
def Obligations.StepRunsDecodedCommand : Prop :=
  ∀ (s : State) (ts : List Turn), s.turns = .engine :: ts ∨ (s.turns = [] ∧ ts = []) → s.status.busy = true →
    (∀ i, decodeWord s.latch.op = .ok i →
      (∀ t, exec i { s with turns := ts } = .next t →
        (s.platform.coherent = true → step s = .next t) ∧
        (s.platform.coherent = false → step s = .next { t with stale := s.writeRanges ++ t.stale })) ∧
      (∀ f, exec i { s with turns := ts } = .fault f → s.turns = .engine :: ts → step s = .fault f) ∧
      (∀ r, exec i { s with turns := ts } = .refused r → step s = .refused r)) ∧
    (∀ e, decodeWord s.latch.op = .error e →
      step s = .next (State.complete { s with turns := ts } .eIllegal))

/-- The next step runs the word that `State.withFetchWord` places, with the operand registers latched.
`withFetchWord` is the model's choice (notes/assumptions/16.md): no rule of the spec fills `LATCH` but an accepting
`CMD` write, and this does so from outside the machine, even while `BUSY = 1`, and puts an engine turn first. -/
def Obligations.FetchedWordIsRunNext : Prop :=
  ∀ (s : State) (i : Instr), s.platform.coherent = true →
    step (s.withFetchWord 32 (encode i).toNat) =
      exec i { s with
        latch := { op := encode i, operands := s.operands },
        status := { s.status with busy := true, isDone := false } }

/-- Whose move a step is when it is not the engine's.  A host turn, and with no turn prescribed an idle or a stuck
engine, gives the host's next move, whatever it is; with the host done the step answers the state as it is, but for
a stuck engine, where it faults; an engine turn with `BUSY = 0` changes nothing.  That the engine has no step with
`BUSY = 0` is 10_state.md R52, and with a stuck command 20_memory.md R63; who moves then, and that the step faults when
the host too is done, is the model's choice (notes/assumptions/3.md, notes/assumptions/7.md). -/
def Obligations.HostMovesWhenTheEngineDoesNot : Prop :=
  (∀ (s : State) (i : Instr) (why : StuckReason), s.turns = [] → s.status.busy = true →
    decodeWord s.latch.op = .ok i → exec i s = .fault (.engineStuck why) →
    (s.hostOps = [] → step s = .fault (.engineStuck why)) ∧
    (∀ op rest, s.hostOps = op :: rest → step s = hostMove s op rest)) ∧
  (∀ (s : State), s.turns = [] → s.status.busy = false →
    (s.hostOps = [] → step s = .next s) ∧
    (∀ op rest, s.hostOps = op :: rest → step s = hostMove s op rest)) ∧
  ∀ (s : State) (ts : List Turn),
    (s.turns = .host :: ts →
      (s.hostOps = [] → step s = .next { s with turns := ts }) ∧
      (∀ op rest, s.hostOps = op :: rest → step s = hostMove { s with turns := ts } op rest)) ∧
    (s.turns = .engine :: ts → s.status.busy = false → step s = .next { s with turns := ts })

/-! ### Reset (10_state.md R50, 70_reset_and_hazards.md R230, R231) -/

/-- The reset values of 10_state.md R50. -/
def Obligations.ResetValues : Prop :=
  State.reset.sponge.IsFresh ∧ State.reset.ctx.IsZero ∧
  State.reset.status = { busy := false, isDone := false, overrun := false } ∧ State.reset.result = 0 ∧
  State.reset.operands = { srcAddr := 0, srcLen := 0, keyAddr := 0, keyLen := 0, dstAddr := 0, dstLen := 0 } ∧
  State.reset.legacy0 = 0 ∧ State.reset.legacy1 = 0 ∧
  State.reset.latch =
    { op := 0, operands := { srcAddr := 0, srcLen := 0, keyAddr := 0, keyLen := 0, dstAddr := 0, dstLen := 0 } }

/-- The reset state meets the invariant of Safety.lean. -/
def Obligations.ResetMeetsInvariant : Prop := State.reset.Inv

/-- Reset puts every register of the block to its reset value in one step, whatever was running or waiting
(70_reset_and_hazards.md R230). -/
def Obligations.ResetClearsTheBlock : Prop :=
  ∀ (s : State) (ts : List Turn), s.turns = .reset :: ts →
    ∃ t, step s = .next t ∧ t.sponge.IsFresh ∧ t.ctx.IsZero ∧
      t.status = { busy := false, isDone := false, overrun := false } ∧ t.result = 0 ∧
      t.operands = { srcAddr := 0, srcLen := 0, keyAddr := 0, keyLen := 0, dstAddr := 0, dstLen := 0 } ∧
      t.legacy0 = 0 ∧ t.legacy1 = 0 ∧
      t.latch =
        { op := 0, operands := { srcAddr := 0, srcLen := 0, keyAddr := 0, keyLen := 0, dstAddr := 0, dstLen := 0 } }

/-- Reset writes no host memory but the output range of a command it abandons, which never completes
(70_reset_and_hazards.md R231).  Three parts are the model's reading: that an illegal word, and a command that its
checks would reject, has no output range, so that reset then writes no memory at all (notes/assumptions/6.md,
notes/assumptions/15.md; R231 itself makes no such exception); that a range ends with the address space; and that the
platform, the host's program and what it has read are not the block's and stay (notes/assumptions/6.md). -/
def Obligations.ResetWritesOnlyAbandonedOutputs : Prop :=
  ∀ (s : State) (ts : List Turn), s.turns = .reset :: ts →
    ∃ t, step s = .next t ∧ t.status.isDone = false ∧ t.result = 0 ∧
      (∀ c, (s.status.busy = true → ∀ r ∈ s.writeRanges, c < r.base ∨ r.base + r.len ≤ c) →
        t.mem.read c = s.mem.read c) ∧
      t.platform = s.platform ∧ t.hostOps = s.hostOps ∧ t.turns = ts ∧ t.hostReads = s.hostReads ∧
      t.cleaned = s.cleaned ∧ t.stale = s.stale

/-! ### The invariant -/

/-- Every step keeps the invariant: canonical memory, `BUSY` and `DONE` never both 1 (10_state.md R36), a listed
result code and never `E_ALLOC` (60_exceptions.md R201, R205), `RATE_USED <= 167` in the absorb phase
(10_state.md R24). -/
def Obligations.StepKeepsInvariant : Prop :=
  ∀ s t : State, s.Inv → step s = .next t → t.Inv

/-! ### Checks and completion (60_exceptions.md R201 to R208) -/

/-- A command completes with `E_NULL` exactly under the conditions of 60_exceptions.md R202, and then changes
nothing but `RESULT`, `BUSY` and `DONE` (R207). -/
def Obligations.NullOperandRejects : Prop :=
  ∀ (i : Instr) (s : State),
    ((∃ t, exec i s = .next t ∧ t.result = 0xFFFFFFFF) ↔
      (match i with
        | .qvInit => s.latch.operands.keyAddr = 0 ∧ s.latch.operands.keyLen ≠ 0
        | .qvUpdate => s.latch.operands.srcAddr = 0 ∧ s.latch.operands.srcLen ≠ 0
        | .qvFinal => s.latch.operands.dstAddr = 0
        | .qvHash | .vortexHash => s.latch.operands.dstAddr = 0 ∨
            (s.latch.operands.srcAddr = 0 ∧ s.latch.operands.srcLen ≠ 0) ∨
            (s.latch.operands.keyAddr = 0 ∧ s.latch.operands.keyLen ≠ 0)
        | .keccakF => False
        | .spongeInit => False
        | .spongeAbsorb => s.latch.operands.srcAddr = 0 ∧ s.latch.operands.srcLen ≠ 0
        | .spongeFinal => False
        | .spongeSqueeze => s.latch.operands.dstAddr = 0 ∧ s.latch.operands.dstLen ≠ 0
        | .lanesLoad | .qvCompress | .sboxLoad | .hstateLoad => s.latch.operands.srcAddr = 0)) ∧
    (∀ t, exec i s = .next t → t.result = 0xFFFFFFFF → t = s.complete .eNull)

/-- A command completes with `E_PHASE` exactly when it is a sponge command in the wrong phase and no `E_NULL`
condition holds (60_exceptions.md R204, R206), and then changes nothing but `RESULT`, `BUSY` and `DONE`. -/
def Obligations.WrongPhaseRejects : Prop :=
  ∀ (i : Instr) (s : State),
    ((∃ t, exec i s = .next t ∧ t.result = 0xFFFFFFFC) ↔
      (nullFault i s.latch.operands = false ∧
        (match i with
          | .spongeAbsorb | .spongeFinal => s.sponge.phase = .squeeze
          | .spongeSqueeze => s.sponge.phase = .absorb
          | _ => False))) ∧
    (∀ t, exec i s = .next t → t.result = 0xFFFFFFFC → t = s.complete .ePhase)

/-- A rejected command has no effect but its completion: host memory, the sponge and the context are exactly as they
were, and only `RESULT`, `BUSY` and `DONE` change (60_exceptions.md R207). -/
def Obligations.RejectedCommandChangesNothing : Prop :=
  ∀ (s t : State), executeLatched s = .next t → t.result ≠ 0 →
    t.mem = s.mem ∧ t.sponge = s.sponge ∧ t.ctx = s.ctx ∧
      (s.Finishes t .eNull ∨ s.Finishes t .eIllegal ∨ s.Finishes t .ePhase)

/-- Every command whose checks pass and whose operand ranges are admitted answers a next state, completed with
`OK`, with everything no command writes as before (60_exceptions.md R206, R208; 10_state.md R52). -/
def Obligations.AcceptedCommandCompletes : Prop :=
  ∀ (i : Instr) (s : State), s.Accepts i → s.Admits i → ∃ t, exec i s = .next t ∧ s.Finishes t .ok

/-- A command that passes its checks and has an operand range that wraps past 2^64 - 1, or that touches a byte the
platform does not let the engine access so, has no engine step (20_memory.md R63).  That the engine is stuck also when
a byte of its ranges belongs to a device, for which R69 has the command refused, is the model's choice
(notes/assumptions/8.md), and so is that all ranges are judged before anything is written
(notes/assumptions/7.md). -/
def Obligations.UnadmittedRangeSticksTheEngine : Prop :=
  ∀ (i : Instr) (s : State), s.Accepts i →
    ((∃ o ∈ footprint i s.latch.operands, 0 < o.range.len ∧ 2 ^ 64 < o.range.base + o.range.len) →
      exec i s = .fault (.engineStuck .rangeWraps)) ∧
    ((∀ o ∈ footprint i s.latch.operands, 0 < o.range.len → o.range.base + o.range.len ≤ 2 ^ 64) →
      (∃ o ∈ footprint i s.latch.operands, ∃ g ∈ s.platform.regions, ∃ c,
        g.kind.bars o.access = true ∧ g.span.base ≤ c ∧ c < g.span.base + g.span.len ∧
        o.range.base ≤ c ∧ c < o.range.base + o.range.len) →
      exec i s = .fault (.engineStuck .notAdmitted))

/-- A command with a device in an operand range is refused (20_memory.md R69). -/
def Obligations.DeviceOperandIsRefused : Prop :=
  ∀ (i : Instr) (s : State), s.Accepts i → s.platform.stuckOn (footprint i s.latch.operands) = none →
    (∃ o ∈ footprint i s.latch.operands, ∃ g ∈ s.platform.regions, ∃ c,
      g.kind = .device ∧ g.span.base ≤ c ∧ c < g.span.base + g.span.len ∧
      o.range.base ≤ c ∧ c < o.range.base + o.range.len) →
    exec i s = .refused .deviceOperand

/-- The engine never accesses host address 0: no command changes the byte there, and none depends on it
(20_memory.md R62). -/
def Obligations.NullAddressIsNeverAccessed : Prop :=
  ∀ (i : Instr) (s t : State) (v : Byte), s.mem.wf = true → exec i s = .next t →
    t.mem.read 0 = s.mem.read 0 ∧
    ∃ u, exec i { s with mem := s.mem.write 0 v } = .next u ∧ u.sponge = t.sponge ∧ u.ctx = t.ctx ∧
      u.result = t.result ∧ u.mem.read 0 = v ∧ ∀ c, c ≠ 0 → u.mem.read c = t.mem.read c

/-! ### The handshake and the register block (10_state.md R34 to R49) -/

/-- A `CMD` write while `BUSY = 0` latches the word and the operand registers, sets `BUSY` and clears `DONE`, and
changes nothing else (10_state.md R35); while `BUSY = 1` it is dropped and sets `OVERRUN`, and changes nothing else
(60_exceptions.md R210). -/
def Obligations.CmdWriteIsAcceptedOrDropped : Prop :=
  ∀ (s : State) (w : Word32),
    (s.status.busy = false → s.writeReg 0x000 w =
      { s with
        latch := { op := w, operands := s.operands },
        status := { busy := true, isDone := false, overrun := s.status.overrun } }) ∧
    (s.status.busy = true → s.writeReg 0x000 w =
      { s with status := { busy := true, isDone := s.status.isDone, overrun := true } }) ∧
    s.readReg 0x000 = some 0

/-- A host write of `w` to `STATUS` clears `OVERRUN` if `w[2] = 1` and does nothing else; `STATUS` reads as its
three bits (10_state.md R36). -/
def Obligations.StatusWordAndWriteOneToClear : Prop :=
  (∀ (s : State) (w : Word32),
    s.writeReg 0x004 w =
      { s with status := { s.status with overrun := if w.getLsbD 2 then false else s.status.overrun } }) ∧
  (∀ (s : State), ∃ v, s.readReg 0x004 = some v ∧ v.getLsbD 0 = s.status.busy ∧ v.getLsbD 1 = s.status.isDone ∧
    v.getLsbD 2 = s.status.overrun ∧ ∀ j, 3 ≤ j → v.getLsbD j = false)

/-- Each offset is the half of the operand register that 10_state.md R34 names there; a write to an operand or legacy
register is read back, and no other register of the block reads differently: the halves are independent
(10_state.md R38, R39). -/
def Obligations.OperandHalvesAreIndependent : Prop :=
  (∀ (s : State),
    s.readReg 0x010 = some (s.operands.srcAddr.extractLsb' 0 32) ∧
    s.readReg 0x014 = some (s.operands.srcAddr.extractLsb' 32 32) ∧
    s.readReg 0x018 = some (s.operands.srcLen.extractLsb' 0 32) ∧
    s.readReg 0x01C = some (s.operands.srcLen.extractLsb' 32 32) ∧
    s.readReg 0x020 = some (s.operands.keyAddr.extractLsb' 0 32) ∧
    s.readReg 0x024 = some (s.operands.keyAddr.extractLsb' 32 32) ∧
    s.readReg 0x028 = some (s.operands.keyLen.extractLsb' 0 32) ∧
    s.readReg 0x02C = some (s.operands.keyLen.extractLsb' 32 32) ∧
    s.readReg 0x030 = some (s.operands.dstAddr.extractLsb' 0 32) ∧
    s.readReg 0x034 = some (s.operands.dstAddr.extractLsb' 32 32) ∧
    s.readReg 0x038 = some (s.operands.dstLen.extractLsb' 0 32) ∧
    s.readReg 0x03C = some (s.operands.dstLen.extractLsb' 32 32) ∧
    s.readReg 0x040 = some s.legacy0 ∧ s.readReg 0x044 = some s.legacy1) ∧
  ∀ (s : State) (off off' : Nat) (v : Word32), off % 4 = 0 → 0x010 ≤ off → off ≤ 0x044 →
    (s.writeReg off v).readReg off = some v ∧
    (off' ≠ off → (s.writeReg off v).readReg off' = s.readReg off')

/-- Reserved offsets read as 0 and ignore writes, and read-only registers ignore writes (10_state.md R34, R47). -/
def Obligations.ReservedAndReadOnlyOffsets : Prop :=
  (∀ (s : State) (off : Nat) (v : Word32), off ≠ 0x000 → off ≠ 0x004 → (off < 0x010 ∨ 0x044 < off) →
    s.writeReg off v = s) ∧
  (∀ (s : State) (off : Nat), off % 4 = 0 →
    (off = 0x00C ∨ off = 0x048 ∨ off = 0x04C ∨ off = 0x058 ∨ off = 0x05C ∨ (0x070 ≤ off ∧ off ≤ 0x0FC) ∨
      (0x1C8 ≤ off ∧ off ≤ 0x1FC) ∨ (0x240 ≤ off ∧ off ≤ 0x2FC) ∨ (0x440 ≤ off ∧ off ≤ 0xFFC)) →
    s.readReg off = some 0)

/-- The `LANE` window: register `j` holds state bytes `4j .. 4j+3`, so lane `i` stands in registers `2i` and `2i+1`
(10_state.md R22, R43). -/
def Obligations.LaneWindowShowsTheLaneFile : Prop :=
  ∀ (s : State), s.status.busy = false →
    (∀ j, j ≤ 49 → ∃ v, s.readReg (0x100 + 4 * j) = some v ∧
      ∀ b, b < 4 → v.extractLsb' (8 * b) 8 =
        (entry s.sponge.lanes ((4 * j + b) / 8)).extractLsb' (8 * ((4 * j + b) % 8)) 8) ∧
    (∀ i, i < 25 → s.readReg (0x100 + 8 * i) = some ((entry s.sponge.lanes i).extractLsb' 0 32) ∧
      s.readReg (0x104 + 8 * i) = some ((entry s.sponge.lanes i).extractLsb' 32 32))

/-- `RESULT` reads as the code it holds and `VERSION0`, `VERSION1` as their constants, at all times (10_state.md R37,
R40, R48); with `BUSY = 0` the `HSTATE`, `SBOXW` and `BUFW` windows and the control registers show their registers,
little-endian (10_state.md R41, R42, R44, R45, R46). -/
def Obligations.ContextRegistersShowTheContext : Prop :=
  (∀ (s : State), s.readReg 0x008 = some s.result ∧ s.readReg 0x050 = some 0x2E302E31 ∧
    s.readReg 0x054 = some 0x00000030) ∧
  ∀ (s : State), s.status.busy = false →
    (∀ i, i < 8 → s.readReg (0x200 + 8 * i) = some ((entry s.ctx.h i).extractLsb' 0 32) ∧
      s.readReg (0x204 + 8 * i) = some ((entry s.ctx.h i).extractLsb' 32 32)) ∧
    (∃ v, s.readReg 0x060 = some v ∧ (v.extractLsb' 0 8).toNat = s.sponge.rateUsed.val ∧
      v.getLsbD 8 = (s.sponge.phase == .squeeze) ∧ v.extractLsb' 9 23 = 0) ∧
    (∃ v, s.readReg 0x064 = some v ∧ v.toNat = s.ctx.bufLen.val) ∧
    s.readReg 0x068 = some (s.ctx.totalLen.extractLsb' 0 32) ∧
    s.readReg 0x06C = some (s.ctx.totalLen.extractLsb' 32 32) ∧
    (∀ j, j < 64 → ∃ v, s.readReg (0x300 + 4 * j) = some v ∧
      ∀ b, b < 4 → v.extractLsb' (8 * b) 8 = entry s.ctx.sbox (4 * j + b)) ∧
    (∀ j, j < 16 → ∃ v, s.readReg (0x400 + 4 * j) = some v ∧
      ∀ b, b < 4 → v.extractLsb' (8 * b) 8 = entry s.ctx.buf (4 * j + b))

/-- While `BUSY = 1` a read of the windows and of `SPONGE_CTRL`, `BUF_LEN`, `TOTAL_LEN` gives a free value and no
other register does (10_state.md R48).  The free value is whatever `Config.freeWord` is.  That it is drawn at the
counter `draws`, which then advances (notes/assumptions/5.md), that the host is a list of accesses and each value it
reads is logged (notes/assumptions/4.md), and that a turn is prescribed (notes/assumptions/3.md) is the model's
choice. -/
def Obligations.WindowReadsWhileBusyAreDrawn : Prop :=
  ∀ (s : State) (off : BitVec 12) (ts : List Turn) (rest : List HostOp),
    s.status.busy = true → s.turns = .host :: ts → s.hostOps = .regRead .w32 off :: rest → off.toNat % 4 = 0 →
    (((0x060 ≤ off.toNat ∧ off.toNat ≤ 0x06C) ∨ (0x100 ≤ off.toNat ∧ off.toNat ≤ 0x1C4) ∨
        (0x200 ≤ off.toNat ∧ off.toNat ≤ 0x23C) ∨ (0x300 ≤ off.toNat ∧ off.toNat ≤ 0x3FC) ∨
        (0x400 ≤ off.toNat ∧ off.toNat ≤ 0x43C)) →
      step s = .next { s with turns := ts, hostOps := rest, draws := s.draws + 1,
                              hostReads := .reg off (Config.freeWord s.draws) :: s.hostReads }) ∧
    (off.toNat ≤ 0x05C → ∃ v, s.readReg off.toNat = some v ∧
      step s = .next { s with turns := ts, hostOps := rest, hostReads := .reg off v :: s.hostReads })

/-- A running command reads only the latch: a host write to an operand or legacy register after acceptance commutes
with the engine step (10_state.md R49, 70_reset_and_hazards.md R238). -/
def Obligations.LatchedOperandsIsolateTheCommand : Prop :=
  ∀ (i : Instr) (s t : State) (off : Nat) (v : Word32), 0x010 ≤ off → off ≤ 0x044 →
    exec i s = .next t → exec i (s.writeReg off v) = .next (t.writeReg off v)

/-- Outside reset, `RESULT`, the sponge and the context change only in the engine step that completes a command, and
`LATCH` only in the host step that is accepted (10_state.md R37, R49; 20_memory.md R75). -/
def Obligations.OnlyCompletionChangesEngineState : Prop :=
  ∀ (s t : State), step s = .next t → (∀ ts, s.turns ≠ .reset :: ts) →
    (t.result ≠ s.result ∨ t.sponge ≠ s.sponge ∨ t.ctx ≠ s.ctx →
      s.status.busy = true ∧ t.status.busy = false ∧ t.status.isDone = true) ∧
    (t.latch ≠ s.latch →
      s.status.busy = false ∧ t.status.busy = true ∧ t.status.isDone = false ∧ t.latch.operands = s.operands ∧
      ∃ w rest, s.hostOps = .regWrite .w32 0x000 w :: rest ∧ t.latch.op = w)

/-! ### The host's hazards (20_memory.md R67, R73, R76) -/

/-- A host access to the register block of another shape than an aligned 32-bit one is refused (20_memory.md R67), and
a byte load or store at an address of the block is one (the model's reading, notes/assumptions/13.md).  An aligned
32-bit access is performed: a write that accepts no command or finds a coherent platform, a read whose value is
defined, and the poll of `WAIT`, which stays while `BUSY = 1` (30_encoding.md R85).  That the host is a list of
accesses and that each value it reads is logged is the model's choice (notes/assumptions/4.md, 19.md). -/
def Obligations.OnlyAlignedWordAccessesReachTheBlock : Prop :=
  ∀ (s : State) (ts : List Turn) (rest : List HostOp), s.turns = .host :: ts →
    (∀ width off v, width ≠ .w32 ∨ off.toNat % 4 ≠ 0 →
      s.hostOps = .regWrite width off v :: rest ∨ s.hostOps = .regRead width off :: rest →
      step s = .refused .registerAccessShape) ∧
    (∀ a v, s.platform.inBlock a = true → s.hostOps = .memWrite a v :: rest ∨ s.hostOps = .memRead a :: rest →
      step s = .refused .registerAccessShape) ∧
    (∀ off v, off.toNat % 4 = 0 → s.hostOps = .regWrite .w32 off v :: rest →
      off ≠ 0x000 ∨ s.status.busy = true ∨ s.platform.coherent = true →
      step s = .next ({ s with turns := ts, hostOps := rest }.writeReg off.toNat v)) ∧
    (∀ off v, off.toNat % 4 = 0 → s.hostOps = .regRead .w32 off :: rest → s.readReg off.toNat = some v →
      step s = .next { s with turns := ts, hostOps := rest, hostReads := .reg off v :: s.hostReads }) ∧
    (s.hostOps = .waitIdle :: rest → ∃ v, s.readReg 0x004 = some v ∧
      step s = .next { s with
        turns := ts, hostOps := (if s.status.busy then s.hostOps else rest),
        hostReads := .reg 0x004 v :: s.hostReads })

/-- While a command that passes its checks runs, a host store to a byte it reads or writes, and a host load of a byte
it writes, is refused (20_memory.md R73, 70_reset_and_hazards.md R236).  Every other host store to host memory is
performed and changes that byte alone, and so is every other host load on a coherent platform: with `BUSY = 0`, and
while an illegal or a rejected command runs, whichever byte it is.  That such a command counts as touching no byte is
the model's reading (notes/assumptions/15.md); that with `BUSY = 0` an output byte of the last command is read and
written as host memory holds it, with no read of `STATUS` before, is its choice (notes/assumptions/23.md), and so is the
list `cleaned`, which a store changes too (notes/assumptions/14.md). -/
def Obligations.RacingHostAccessIsRefused : Prop :=
  ∀ (s : State) (ts : List Turn) (rest : List HostOp) (a : Addr) (v : Byte),
    s.turns = .host :: ts → s.platform.inBlock a = false → s.platform.hostMemoryAt a = true →
    (∀ i, s.status.busy = true → decodeWord s.latch.op = .ok i → s.Accepts i →
      ((∃ o ∈ footprint i s.latch.operands, o.range.Has a.toNat) →
        s.hostOps = .memWrite a v :: rest → step s = .refused .operandRace) ∧
      ((∃ o ∈ footprint i s.latch.operands, o.access = .write ∧ o.range.Has a.toNat) →
        s.hostOps = .memRead a :: rest → step s = .refused .operandRace)) ∧
    ((s.status.busy = true → ∀ i, decodeWord s.latch.op = .ok i → s.Accepts i →
        ∀ o ∈ footprint i s.latch.operands, ¬ o.range.Has a.toNat) →
      s.hostOps = .memWrite a v :: rest → ∃ l, step s = .next { s with
        turns := ts, hostOps := rest, mem := s.mem.write a.toNat v, cleaned := l }) ∧
    ((s.status.busy = true → ∀ i, decodeWord s.latch.op = .ok i → s.Accepts i →
        ∀ o ∈ footprint i s.latch.operands, o.access = .write → ¬ o.range.Has a.toNat) →
      s.platform.coherent = true → s.hostOps = .memRead a :: rest →
      step s = .next { s with turns := ts, hostOps := rest, hostReads := .mem a (s.mem.read a.toNat) :: s.hostReads })

/-- On a platform that is not coherent (20_memory.md R76): an accepting `CMD` write is refused when some input byte of a
command that passes its checks is not cleaned, and accepted otherwise; a host load of an output byte that has not been
invalidated is refused, and any other is performed.  That the model keeps the two lists of ranges `cleaned` and
`stale`, and how cache maintenance and a host store change them, is the model's choice (notes/assumptions/14.md).  That
an illegal word, and a command that its checks will reject, has no input range to clean is its reading
(notes/assumptions/15.md), and that the load needs no read of `STATUS` before it is its choice
(notes/assumptions/23.md). -/
def Obligations.MissingCacheMaintenanceIsRefused : Prop :=
  ∀ (s : State) (ts : List Turn) (rest : List HostOp), s.turns = .host :: ts → s.platform.coherent = false →
    (∀ w i, s.hostOps = .regWrite .w32 0x000 w :: rest → s.status.busy = false → decodeWord w = .ok i →
      nullFault i s.operands = false → phaseFault i s.sponge.phase = false →
      (∃ o ∈ footprint i s.operands, o.access = .read ∧ ∃ c, o.range.Has c ∧ ¬ InSome s.cleaned c) →
      step s = .refused .cleanMissing) ∧
    (∀ w, s.hostOps = .regWrite .w32 0x000 w :: rest → s.status.busy = false →
      (∀ i, decodeWord w = .ok i → nullFault i s.operands = false → phaseFault i s.sponge.phase = false →
        ∀ o ∈ footprint i s.operands, o.access = .read → ∀ c, o.range.Has c → InSome s.cleaned c) →
      step s = .next { s with
        turns := ts, hostOps := rest, latch := { op := w, operands := s.operands },
        status := { busy := true, isDone := false, overrun := s.status.overrun } }) ∧
    (∀ a, s.hostOps = .memRead a :: rest → s.platform.inBlock a = false → s.platform.hostMemoryAt a = true →
      s.commandWrites a = false →
      (InSome s.stale a.toNat → step s = .refused .invalidateMissing) ∧
      (¬ InSome s.stale a.toNat → step s = .next { s with
        turns := ts, hostOps := rest, hostReads := .mem a (s.mem.read a.toNat) :: s.hostReads })) ∧
    (∀ r, s.hostOps = .cacheClean r :: rest → ∃ l, step s = .next { s with
        turns := ts, hostOps := rest, cleaned := l } ∧ ∀ c, InSome l c ↔ r.Has c ∨ InSome s.cleaned c) ∧
    (∀ r, s.hostOps = .cacheInvalidate r :: rest → ∃ l, step s = .next { s with
        turns := ts, hostOps := rest, stale := l } ∧ ∀ c, InSome l c ↔ InSome s.stale c ∧ ¬ r.Has c) ∧
    (∀ a v t, s.hostOps = .memWrite a v :: rest → step s = .next t →
      ∀ c, InSome t.cleaned c ↔ InSome s.cleaned c ∧ c ≠ a.toNat)

/-! ### Keccak-f[1600] (40_keccak.md) -/

/-- The θ, χ and ι steps lane by lane (40_keccak.md R101, R104, R105). -/
def Obligations.KeccakStepsLaneByLane : Prop :=
  ∀ (a : Lanes),
    (∀ i, i < 25 → entry (theta a) i = entry a i ^^^
      (rotl64 (entry a ((i + 1) % 5) ^^^ entry a ((i + 1) % 5 + 5) ^^^ entry a ((i + 1) % 5 + 10) ^^^
          entry a ((i + 1) % 5 + 15) ^^^ entry a ((i + 1) % 5 + 20)) 1 ^^^
        (entry a ((i + 4) % 5) ^^^ entry a ((i + 4) % 5 + 5) ^^^ entry a ((i + 4) % 5 + 10) ^^^
          entry a ((i + 4) % 5 + 15) ^^^ entry a ((i + 4) % 5 + 20)))) ∧
    (∀ x y, x < 5 → y < 5 → entry (chi a) (5 * y + x) =
      entry a (5 * y + x) ^^^ (~~~ entry a (5 * y + (x + 1) % 5) &&& entry a (5 * y + (x + 2) % 5))) ∧
    (∀ rc i, i < 25 → entry (iota a rc) i = if i = 0 then entry a 0 ^^^ rc else entry a i)

/-- The chained walk of 40_keccak.md R102 moves each lane as the table of R103 says. -/
def Obligations.RhoPiIsTheChainedWalk : Prop := ∀ (a : Lanes), rhoPi a = rhoPiWalk a

/-- The ρπ and χ steps lose nothing: no two lane files have the same image (40_keccak.md R103, R107). -/
def Obligations.RhoPiAndChiAreInjective : Prop := Function.Injective rhoPi ∧ Function.Injective chi

/-- The table of round constants is what the LFSR of 40_keccak.md R106 generates. -/
def Obligations.RoundConstantsAreTheLfsr : Prop :=
  ∀ r, r < 24 → roundConstant r = generatedRoundConstant r

/-- `KECCAK_F` (40_keccak.md R108): the lane file is permuted by the 24 rounds of R100 in order, and nothing else
changes. -/
def Obligations.KeccakFPermutesTheLaneFile : Prop :=
  ∀ (s : State), ∃ t, exec .keccakF s = .next t ∧ s.Finishes t .ok ∧
    t.sponge.lanes = (List.range 24).foldl (fun a r => iota (chi (rhoPi (theta a))) (generatedRoundConstant r))
      s.sponge.lanes ∧
    t.sponge.rateUsed = s.sponge.rateUsed ∧ t.sponge.phase = s.sponge.phase ∧ t.ctx = s.ctx ∧ s.SameMemory t

/-- `LANES_LOAD` (40_keccak.md R109): state byte `k` is the byte at `src_addr + k`, for all 200, and nothing else
changes. -/
def Obligations.LanesLoadLoadsTwoHundredBytes : Prop :=
  ∀ (s : State), s.latch.operands.srcAddr ≠ 0 → s.Admits .lanesLoad →
    ∃ t, exec .lanesLoad s = .next t ∧ s.Finishes t .ok ∧
      (∀ k, k < 200 → (entry t.sponge.lanes (k / 8)).extractLsb' (8 * (k % 8)) 8 =
        s.mem.read (s.latch.operands.srcAddr.toNat + k)) ∧
      t.sponge.rateUsed = s.sponge.rateUsed ∧ t.sponge.phase = s.sponge.phase ∧ t.ctx = s.ctx ∧ s.SameMemory t

/-! ### The sponge controller (41_sponge.md) -/

/-- `SPONGE_INIT` (41_sponge.md R122, R127), in either phase. -/
def Obligations.SpongeInitClearsTheSponge : Prop :=
  ∀ (s : State), ∃ t, exec .spongeInit s = .next t ∧ s.Finishes t .ok ∧ t.sponge.IsFresh ∧ t.ctx = s.ctx ∧
    s.SameMemory t

/-- `SPONGE_ABSORB` of bytes that stay within the rate (41_sponge.md R123, R128): byte `RATE_USED + j` is XORed with
input byte `j`, every other state byte, the capacity among them (10_state.md R23), is as before; if that fills the
rate, the permutation runs at once and `RATE_USED` is 0. -/
def Obligations.AbsorbXorsAtTheRateOffset : Prop :=
  ∀ (s : State), s.Accepts .spongeAbsorb → s.Admits .spongeAbsorb → s.sponge.rateUsed.val ≤ 167 →
    s.sponge.rateUsed.val + s.latch.operands.srcLen.toNat ≤ 168 →
    ∃ t a, exec .spongeAbsorb s = .next t ∧ s.Finishes t .ok ∧
      (∀ k, k < 200 → stateByte a k =
        if s.sponge.rateUsed.val ≤ k ∧ k < s.sponge.rateUsed.val + s.latch.operands.srcLen.toNat then
          stateByte s.sponge.lanes k ^^^
            s.mem.read (s.latch.operands.srcAddr.toNat + (k - s.sponge.rateUsed.val))
        else stateByte s.sponge.lanes k) ∧
      (if s.sponge.rateUsed.val + s.latch.operands.srcLen.toNat = 168 then
        t.sponge.lanes = keccakF a ∧ t.sponge.rateUsed.val = 0
      else
        t.sponge.lanes = a ∧
          t.sponge.rateUsed.val = s.sponge.rateUsed.val + s.latch.operands.srcLen.toNat) ∧
      t.sponge.phase = .absorb ∧ t.ctx = s.ctx ∧ s.SameMemory t

/-- Absorbing in any split gives the same state as absorbing at once: two `SPONGE_ABSORB` commands on adjacent
ranges leave the sponge as one on the whole range does (41_sponge.md R123), up to a range that ends with the address
space (20_memory.md R63). -/
def Obligations.AbsorbSplitsAnywhere : Prop :=
  ∀ (s t u w : State) (k n : Word), s.sponge.phase = .absorb → s.latch.operands.srcAddr ≠ 0 →
    s.latch.operands.srcAddr.toNat + k.toNat + n.toNat ≤ 2 ^ 64 →
    exec .spongeAbsorb { s with latch := { s.latch with operands := { s.latch.operands with
      srcLen := k + n } } } = .next w →
    exec .spongeAbsorb { s with latch := { s.latch with operands := { s.latch.operands with srcLen := k } } } =
      .next t →
    exec .spongeAbsorb { t with latch := { t.latch with operands := { t.latch.operands with
      srcAddr := s.latch.operands.srcAddr + k, srcLen := n } } } = .next u →
    u.sponge = w.sponge

/-- `SPONGE_FINAL` (41_sponge.md R124, R129): `0x1F` at byte `RATE_USED` and `0x80` at byte 167, then one
permutation; both hit byte 167 when `RATE_USED = 167`. -/
def Obligations.SpongeFinalPadsAndPermutes : Prop :=
  ∀ (s : State), s.sponge.phase = .absorb →
    ∃ t a, exec .spongeFinal s = .next t ∧ s.Finishes t .ok ∧ t.sponge.lanes = keccakF a ∧
      (∀ k, k < 200 → stateByte a k = stateByte s.sponge.lanes k ^^^
        (if k = s.sponge.rateUsed.val then 0x1F else 0) ^^^ (if k = 167 then 0x80 else 0)) ∧
      t.sponge.rateUsed = 0 ∧ t.sponge.phase = .squeeze ∧ t.ctx = s.ctx ∧ s.SameMemory t

/-- `SPONGE_SQUEEZE` from one rate (41_sponge.md R125, R130): a byte needed when the rate is exhausted permutes first
and starts the rate again, otherwise the lane file is not permuted, not even when the rate is then exhausted; output
byte `j` is the rate's next byte; `dst_len = 0` is a no-op that succeeds, even at `RATE_USED = 168`. -/
def Obligations.SqueezeCopiesTheRate : Prop :=
  ∀ (s : State) (a : Lanes) (r : Nat), s.mem.wf = true → s.Accepts .spongeSqueeze → s.Admits .spongeSqueeze →
    (a, r) = (if s.sponge.rateUsed.val = 168 ∧ s.latch.operands.dstLen ≠ 0 then (keccakF s.sponge.lanes, 0)
      else (s.sponge.lanes, s.sponge.rateUsed.val)) →
    r + s.latch.operands.dstLen.toNat ≤ 168 →
    ∃ t, exec .spongeSqueeze s = .next t ∧ s.Finishes t .ok ∧
      (∀ j, j < s.latch.operands.dstLen.toNat →
        t.mem.read (s.latch.operands.dstAddr.toNat + j) = stateByte a (r + j)) ∧
      s.SameMemoryOutside t s.latch.operands.dstAddr.toNat s.latch.operands.dstLen.toNat ∧
      t.sponge.lanes = a ∧ t.sponge.rateUsed.val = r + s.latch.operands.dstLen.toNat ∧
      t.sponge.phase = .squeeze ∧ t.ctx = s.ctx

/-- `SPONGE_SQUEEZE` of any length writes the stream `Sponge.squeeze` at `dst_addr` and leaves the sponge it leaves; and
squeezing in any split gives the same byte stream as squeezing at once, and the same sponge (41_sponge.md R125,
R130). -/
def Obligations.SqueezeSplitsAnywhere : Prop :=
  (∀ (s : State), s.mem.wf = true → s.Accepts .spongeSqueeze → s.Admits .spongeSqueeze →
    ∃ t, exec .spongeSqueeze s = .next t ∧ s.Finishes t .ok ∧
      t.mem.readBytes s.latch.operands.dstAddr.toNat s.latch.operands.dstLen.toNat =
        (Sponge.squeeze s.latch.operands.dstLen.toNat s.sponge).1 ∧
      t.sponge = (Sponge.squeeze s.latch.operands.dstLen.toNat s.sponge).2) ∧
  ∀ (p : Sponge) (m n : Nat),
    (Sponge.squeeze (m + n) p).1 = (Sponge.squeeze m p).1 ++ (Sponge.squeeze n (Sponge.squeeze m p).2).1 ∧
    (Sponge.squeeze (m + n) p).2 = (Sponge.squeeze n (Sponge.squeeze m p).2).2

/-- However long its operand is, `SPONGE_ABSORB` changes no host memory, and `SPONGE_SQUEEZE` none outside
`[dst_addr, dst_addr + dst_len)`; neither changes the context or the phase (41_sponge.md R128, R130). -/
def Obligations.SpongeStreamFrame : Prop :=
  ∀ (s t : State),
    (exec .spongeAbsorb s = .next t → s.SameMemory t ∧ t.sponge.phase = s.sponge.phase ∧ t.ctx = s.ctx) ∧
    (exec .spongeSqueeze s = .next t →
      s.SameMemoryOutside t s.latch.operands.dstAddr.toNat s.latch.operands.dstLen.toNat ∧
      t.sponge.phase = s.sponge.phase ∧ t.ctx = s.ctx)

/-- In the squeeze phase only `SPONGE_INIT` and the S-box derivation bring the sponge back to `ABSORB`, and only
`SPONGE_FINAL` leaves `ABSORB` (10_state.md R25; the squeeze phase inside a derivation ends within the command,
42_sbox_compress.md R140). -/
def Obligations.PhaseChangesOnlyOnInitAndFinal : Prop :=
  ∀ (i : Instr) (s t : State), exec i s = .next t →
    (s.sponge.phase = .squeeze → t.sponge.phase = .absorb →
      i = .spongeInit ∨ i = .qvInit ∨ i = .qvHash ∨ i = .vortexHash) ∧
    (s.sponge.phase = .absorb → t.sponge.phase = .squeeze → i = .spongeFinal)

/-! ### The compressor (42_sbox_compress.md) -/

/-- The quarter-mix on four distinct words, line by line; the other four words stay (42_sbox_compress.md R146). -/
def Obligations.QuarterMixLineByLine : Prop :=
  ∀ (s : Chain) (a b c d : Nat), a < 8 → b < 8 → c < 8 → d < 8 →
    a ≠ b → a ≠ c → a ≠ d → b ≠ c → b ≠ d → c ≠ d →
    let a1 := entry s a + entry s b
    let d1 := rotl64 (entry s d ^^^ a1) 32
    let c1 := entry s c + d1
    let b1 := rotl64 (entry s b ^^^ c1) 24
    let a2 := a1 + b1
    let d2 := rotl64 (d1 ^^^ a2) 16
    let c2 := c1 + d2
    let b2 := rotl64 (b1 ^^^ c2) 63
    entry (quarterMix s a b c d) a = a2 ∧ entry (quarterMix s a b c d) b = b2 ∧
    entry (quarterMix s a b c d) c = c2 ∧ entry (quarterMix s a b c d) d = d2 ∧
    ∀ i, i < 8 → i ≠ a → i ≠ b → i ≠ c → i ≠ d → entry (quarterMix s a b c d) i = entry s i

/-- The mixer's rotation amount is bits 61:56 of the message word, and the word is XORed in rotated left by it
(42_sbox_compress.md R145 with `ROT_SHIFT = 56`). -/
def Obligations.RotationAmountIsBits61To56 : Prop :=
  ∀ (s m : Chain) (k : Nat), k < 8 →
    entry (rotationMix Config.rotShift s m) k =
      entry s k ^^^ (entry m k).rotateLeft ((entry m k).extractLsb' 56 6).toNat

/-- With the S-box and the chaining state all zero, compressing any block leaves the chaining state zero
(42_sbox_compress.md R149 corner case, 70_reset_and_hazards.md R234). -/
def Obligations.ZeroContextCompressesToZero : Prop :=
  ∀ (h : Chain) (sbox : SBox) (b : Block), (∀ i, i < 8 → entry h i = 0) → (∀ i, i < 256 → entry sbox i = 0) →
    ∀ i, i < 8 → entry (compress h sbox b) i = 0

/-- `QV_COMPRESS` (42_sbox_compress.md R149): `H` is the compression of the 64 bytes at `src_addr`, nothing else
changes.  The compression is written out in the order of R142: the block `b` substituted through the S-box and loaded
as the words `m`, little-endian (R143, R144); the mixer on a copy of `H` (R145, with `ROT_SHIFT = 56`); two rounds of
four quarter-mixes (R146) and the word shift (R147); the feed-forward into `H` (R148). -/
def Obligations.QvCompressCompressesOneBlock : Prop :=
  ∀ (s : State), s.latch.operands.srcAddr ≠ 0 → s.Admits .qvCompress →
    ∃ t b, ∃ m w0 w1 w2 : Chain, exec .qvCompress s = .next t ∧ s.Finishes t .ok ∧
      (∀ i, i < 64 → entry b i = s.mem.read (s.latch.operands.srcAddr.toNat + i)) ∧
      (∀ k j, k < 8 → j < 8 →
        (entry m k).extractLsb' (8 * j) 8 = entry s.ctx.sbox (entry b (8 * k + j)).toNat) ∧
      (∀ k, k < 8 → entry w0 k =
        entry s.ctx.h k ^^^ (entry m k).rotateLeft ((entry m k).extractLsb' 56 6).toNat) ∧
      (∀ i, i < 8 → entry w1 i =
        entry (quarterMix (quarterMix (quarterMix (quarterMix w0 0 1 2 3) 4 5 6 7) 0 5 2 7) 4 1 6 3) ((i + 1) % 8)) ∧
      (∀ i, i < 8 → entry w2 i =
        entry (quarterMix (quarterMix (quarterMix (quarterMix w1 0 1 2 3) 4 5 6 7) 0 5 2 7) 4 1 6 3) ((i + 1) % 8)) ∧
      (∀ i, i < 8 → entry (compress s.ctx.h s.ctx.sbox b) i = entry s.ctx.h i ^^^ entry w2 i) ∧
      t.ctx = { s.ctx with h := compress s.ctx.h s.ctx.sbox b } ∧ t.sponge = s.sponge ∧ s.SameMemory t

/-- `SBOX_LOAD` (42_sbox_compress.md R150): entry `i` is the byte at `src_addr + i`, any table; nothing else
changes. -/
def Obligations.SboxLoadLoadsTheTable : Prop :=
  ∀ (s : State), s.latch.operands.srcAddr ≠ 0 → s.Admits .sboxLoad →
    ∃ t, exec .sboxLoad s = .next t ∧ s.Finishes t .ok ∧
      (∀ i, i < 256 → entry t.ctx.sbox i = s.mem.read (s.latch.operands.srcAddr.toNat + i)) ∧
      t.ctx = { s.ctx with sbox := t.ctx.sbox } ∧ t.sponge = s.sponge ∧ s.SameMemory t

/-- `HSTATE_LOAD` (42_sbox_compress.md R151): word `k` is the eight bytes at `src_addr + 8k`, little-endian; nothing
else changes. -/
def Obligations.HstateLoadLoadsLittleEndianWords : Prop :=
  ∀ (s : State), s.latch.operands.srcAddr ≠ 0 → s.Admits .hstateLoad →
    ∃ t, exec .hstateLoad s = .next t ∧ s.Finishes t .ok ∧
      (∀ k j, k < 8 → j < 8 → (entry t.ctx.h k).extractLsb' (8 * j) 8 =
        s.mem.read (s.latch.operands.srcAddr.toNat + 8 * k + j)) ∧
      t.ctx = { s.ctx with h := t.ctx.h } ∧ t.sponge = s.sponge ∧ s.SameMemory t

/-! ### The hash commands (43_stream.md) -/

/-- `QV_INIT` (43_stream.md R170, R174): `H` is the IV of 10_state.md R27, the counters are 0, the sponge is
cleared, the S-box is `SHAKE128(SHAKE128(K, 32), 256)` with the default key in place of an empty one
(42_sbox_compress.md R140), and `BUF` and host memory are unchanged.  And `SHAKE128(M, n)` is what the four sponge
commands write (41_sponge.md R126): `SPONGE_INIT`, `SPONGE_ABSORB` of `M`, `SPONGE_FINAL` and `SPONGE_SQUEEZE` of `n`
bytes, with nothing between them that writes the sponge. -/
def Obligations.QvInitStartsAStream : Prop :=
  (∀ (s : State), s.Accepts .qvInit → s.Admits .qvInit →
    ∃ t, exec .qvInit s = .next t ∧ s.Finishes t .ok ∧
      t.ctx.h.toList = [0x6A09E667F3BCC908, 0xBB67AE8584CAA73B, 0x3C6EF372FE94F82B, 0xA54FF53A5F1D36F1,
        0x510E527FADE682D1, 0x9B05688C2B3E6C1F, 0x1F83D9ABFB41BD6B, 0x5BE0CD19137E2179] ∧
      t.ctx.sbox.toList =
        shake128 (shake128 (if s.latch.operands.keyLen = 0 then List.replicate 32 0xCC
          else s.mem.readBytes s.latch.operands.keyAddr.toNat s.latch.operands.keyLen.toNat) 32) 256 ∧
      t.ctx.bufLen = 0 ∧ t.ctx.totalLen = 0 ∧ t.ctx.buf = s.ctx.buf ∧ t.sponge.IsFresh ∧ s.SameMemory t) ∧
  ∀ (s0 s1 s2 s3 t0 t1 t2 t3 : State),
    exec .spongeInit s0 = .next t0 → s1.sponge = t0.sponge →
    exec .spongeAbsorb s1 = .next t1 → t1.result = 0 → s2.sponge = t1.sponge →
    exec .spongeFinal s2 = .next t2 → s3.sponge = t2.sponge → s3.mem.wf = true →
    exec .spongeSqueeze s3 = .next t3 → t3.result = 0 →
    t3.mem.readBytes s3.latch.operands.dstAddr.toNat s3.latch.operands.dstLen.toNat =
      shake128 (s1.mem.readBytes s1.latch.operands.srcAddr.toNat s1.latch.operands.srcLen.toNat)
        s3.latch.operands.dstLen.toNat

/-- `QV_UPDATE` (43_stream.md R171, R175): with `X` the buffered bytes followed by the data, the whole 64-byte blocks of
`X` are compressed in order, the rest of `X` stands at the start of the buffer and `BUF_LEN` is its length;
`TOTAL_LEN` grows by the data's length modulo 2^64; and a zero length changes nothing.  The buffer bytes at `BUF_LEN`
and above are what the command last wrote there (10_state.md R29): those of the first block of `X`, if it was completed
in the buffer, else the old ones. -/
def Obligations.QvUpdateAbsorbsTheData : Prop :=
  ∀ (s : State) (x : List Byte), s.Accepts .qvUpdate → s.Admits .qvUpdate →
    x = s.ctx.buf.toList.take s.ctx.bufLen.val ++
      s.mem.readBytes s.latch.operands.srcAddr.toNat s.latch.operands.srcLen.toNat →
    ∃ t, exec .qvUpdate s = .next t ∧ s.Finishes t .ok ∧
      t.ctx.h = (List.range (x.length / 64)).foldl
        (fun h b => compress h s.ctx.sbox (tabulate 64 fun j => x.getD (64 * b + j) 0)) s.ctx.h ∧
      t.ctx.bufLen.val = x.length % 64 ∧
      (∀ j, j < x.length % 64 → entry t.ctx.buf j = x.getD (64 * (x.length / 64) + j) 0) ∧
      (∀ j, x.length % 64 ≤ j → j < 64 → entry t.ctx.buf j =
        if 64 ≤ x.length ∧ 0 < s.ctx.bufLen.val then x.getD j 0 else entry s.ctx.buf j) ∧
      (s.latch.operands.srcLen = 0 → t.ctx = s.ctx) ∧
      t.ctx.totalLen = s.ctx.totalLen + s.latch.operands.srcLen ∧
      t.ctx.sbox = s.ctx.sbox ∧ t.sponge = s.sponge ∧ s.SameMemory t

/-- `QV_FINAL` (43_stream.md R173, R176): the 32 bytes at `dst_addr` are the digest, every other byte of host memory
is unchanged, the whole context is zero and the sponge untouched. -/
def Obligations.QvFinalWritesTheDigest : Prop :=
  ∀ (s : State), s.mem.wf = true → s.latch.operands.dstAddr ≠ 0 → s.Admits .qvFinal →
    ∃ t, exec .qvFinal s = .next t ∧ s.Finishes t .ok ∧
      t.mem.readBytes s.latch.operands.dstAddr.toNat 32 = s.ctx.digest ∧
      s.SameMemoryOutside t s.latch.operands.dstAddr.toNat 32 ∧ t.ctx.IsZero ∧ t.sponge = s.sponge

/-- The final block of 43_stream.md R173 with `BUF_LEN <= 55`: the buffered bytes, `0x80`, zeros to byte 55, the bit
count modulo 2^64 in bytes 56 to 63; one compression, and the digest is `H[0..3]` little-endian. -/
def Obligations.ShortTailIsPaddedIntoOneBlock : Prop :=
  ∀ (c : Context), c.bufLen.val ≤ 55 → ∃ b h, h = compress c.h c.sbox b ∧
    (∀ j, j < 64 → entry b j =
      if j < c.bufLen.val then entry c.buf j else if j = c.bufLen.val then 0x80
      else if j < 56 then 0 else (c.totalLen * 8).extractLsb' (8 * (j - 56)) 8) ∧
    c.digest.length = 32 ∧ ∀ j, j < 32 → c.digest.getD j 0 = (entry h (j / 8)).extractLsb' (8 * (j % 8)) 8

/-- The final blocks of 43_stream.md R173 with `BUF_LEN` in 56 .. 63: the buffered bytes, `0x80` and zeros to byte
63 are compressed first, then a block of 56 zeros and the bit count. -/
def Obligations.LongTailIsPaddedIntoTwoBlocks : Prop :=
  ∀ (c : Context), 56 ≤ c.bufLen.val → ∃ b1 b2 h, h = compress (compress c.h c.sbox b1) c.sbox b2 ∧
    (∀ j, j < 64 → entry b1 j =
      if j < c.bufLen.val then entry c.buf j else if j = c.bufLen.val then 0x80 else 0) ∧
    (∀ j, j < 64 → entry b2 j = if j < 56 then 0 else (c.totalLen * 8).extractLsb' (8 * (j - 56)) 8) ∧
    c.digest.length = 32 ∧ ∀ j, j < 32 → c.digest.getD j 0 = (entry h (j / 8)).extractLsb' (8 * (j % 8)) 8

/-- `QV_HASH` (43_stream.md R177) is init, update and final on the bytes host memory held before the command's first
write, so overlapping ranges are defined (20_memory.md R72); and `VORTEX_HASH` does the same (R178). -/
def Obligations.OneShotHashIsInitUpdateFinal : Prop :=
  ∀ (s : State) (i : Instr), i = .qvHash ∨ i = .vortexHash → s.mem.wf = true → s.Accepts i → s.Admits i →
    ∃ t, exec i s = .next t ∧ s.Finishes t .ok ∧
      t.mem.readBytes s.latch.operands.dstAddr.toNat 32 =
        ((s.ctx.streamInit (s.mem.readBytes s.latch.operands.keyAddr.toNat s.latch.operands.keyLen.toNat)).streamUpdate
          (s.mem.readBytes s.latch.operands.srcAddr.toNat s.latch.operands.srcLen.toNat)).digest ∧
      s.SameMemoryOutside t s.latch.operands.dstAddr.toNat 32 ∧ t.ctx.IsZero ∧ t.sponge.IsFresh

/-- On the all-zero context, after reset or after a final, `QV_FINAL` completes with `OK` and writes 32 zero bytes
(70_reset_and_hazards.md R234, 43_stream.md R176). -/
def Obligations.UninitialisedFinalWritesZeros : Prop :=
  ∀ (s : State), s.mem.wf = true → s.latch.operands.dstAddr ≠ 0 → s.Admits .qvFinal → s.ctx.IsZero →
    ∃ t, exec .qvFinal s = .next t ∧ t.result = 0 ∧
      ∀ j, j < 32 → t.mem.read (s.latch.operands.dstAddr.toNat + j) = 0

/-- The digest depends only on the key bytes and the data bytes: two machines, alike in nothing else, write the same
32 bytes (43_stream.md R180). -/
def Obligations.DigestDependsOnKeyAndDataOnly : Prop :=
  ∀ (s s' t t' : State) (i i' : Instr), (i = .qvHash ∨ i = .vortexHash) → (i' = .qvHash ∨ i' = .vortexHash) →
    s.mem.wf = true → s'.mem.wf = true →
    exec i s = .next t → t.result = 0 → exec i' s' = .next t' → t'.result = 0 →
    s.mem.readBytes s.latch.operands.keyAddr.toNat s.latch.operands.keyLen.toNat =
      s'.mem.readBytes s'.latch.operands.keyAddr.toNat s'.latch.operands.keyLen.toNat →
    s.mem.readBytes s.latch.operands.srcAddr.toNat s.latch.operands.srcLen.toNat =
      s'.mem.readBytes s'.latch.operands.srcAddr.toNat s'.latch.operands.srcLen.toNat →
    t.mem.readBytes s.latch.operands.dstAddr.toNat 32 = t'.mem.readBytes s'.latch.operands.dstAddr.toNat 32

/-- For any key, any data and any split of it, init, the updates and final give the digest of one update with all of
it, whatever the two contexts held before (43_stream.md R172, R179). -/
def Obligations.SplitsAreImmaterial : Prop :=
  ∀ (c c' : Context) (key : List Byte) (pieces : List (List Byte)),
    (pieces.foldl Context.streamUpdate (c.streamInit key)).digest =
      ((c'.streamInit key).streamUpdate pieces.flatten).digest

/-- Streaming equivalence (43_stream.md R179): `QV_INIT`, any number of `QV_UPDATE` and `QV_FINAL`, with nothing between
them that writes the context, write the same 32 bytes as `QV_HASH`, or its alias, of the same key and the joined data,
on any other state. -/
def Obligations.StreamingEquivalence : Prop :=
  ∀ (s0 s1 s2 s3 r r' : State) (pieces : List (List Byte)) (i : Instr),
    exec .qvInit s0 = .next s1 → s1.result = 0 →
    State.StreamsTo s1 pieces s2 →
    s2.mem.wf = true → exec .qvFinal s2 = .next s3 → s3.result = 0 →
    (i = .qvHash ∨ i = .vortexHash) → r.mem.wf = true → exec i r = .next r' → r'.result = 0 →
    r.mem.readBytes r.latch.operands.keyAddr.toNat r.latch.operands.keyLen.toNat =
      s0.mem.readBytes s0.latch.operands.keyAddr.toNat s0.latch.operands.keyLen.toNat →
    r.mem.readBytes r.latch.operands.srcAddr.toNat r.latch.operands.srcLen.toNat = pieces.flatten →
    s3.mem.readBytes s2.latch.operands.dstAddr.toNat 32 = r'.mem.readBytes r.latch.operands.dstAddr.toNat 32
end

