-- ==== Sys2Proof/Laws/Bits.lean ====
section
/-! SUPPORT. Register files by index, and words against their bytes. -/

namespace Sys2Proof.Machine

theorem getElem?_tabulateFrom {α : Type} (f : Nat → α) :
    ∀ n i j, (tabulateFrom f n i)[j]? = if j < n then some (f (i + j)) else none
  | 0, _, _ => by simp [tabulateFrom]
  | n + 1, i, 0 => by simp [tabulateFrom]
  | n + 1, i, j + 1 => by simp [tabulateFrom, getElem?_tabulateFrom f n (i + 1) j, Nat.add_comm, Nat.add_left_comm]

@[simp] theorem length_tabulateFrom_eq {α : Type} (f : Nat → α) (n i : Nat) :
    (tabulateFrom f n i).length = n := length_tabulateFrom f n i

@[simp] theorem getElem_tabulateFrom {α : Type} (f : Nat → α) (n i j : Nat) (h : j < (tabulateFrom f n i).length) :
    (tabulateFrom f n i)[j] = f (i + j) := by
  have hj : j < n := by simpa using h
  have := getElem?_tabulateFrom f n i j
  rw [List.getElem?_eq_getElem h, if_pos hj] at this
  exact Option.some.inj this

theorem getD_tabulateFrom {α : Type} (f : Nat → α) (n i j : Nat) (d : α) (h : j < n) :
    (tabulateFrom f n i).getD j d = f (i + j) := by
  simp [List.getD, h]

/-- A list is what its indexing function tabulates. -/
theorem tabulateFrom_getD {α : Type} (d : α) (l : List α) : tabulateFrom (fun i => l.getD i d) l.length 0 = l := by
  apply List.ext_getElem (by simp)
  intro i h1 h2
  simp [h2]

theorem tabulateFrom_congr {α : Type} {f g : Nat → α} {n i : Nat}
    (h : ∀ j, i ≤ j → j < i + n → f j = g j) : tabulateFrom f n i = tabulateFrom g n i := by
  apply List.ext_getElem (by simp)
  intro j h1 h2
  have : j < n := by simpa using h1
  simpa using h (i + j) (by omega) (by omega)

theorem tabulateFrom_add {α : Type} (f : Nat → α) :
    ∀ m n i, tabulateFrom f (m + n) i = tabulateFrom f m i ++ tabulateFrom f n (i + m)
  | 0, n, i => by simp [tabulateFrom]
  | m + 1, n, i => by
    rw [show m + 1 + n = (m + n) + 1 by omega]
    simp [tabulateFrom, tabulateFrom_add f m n (i + 1), Nat.add_comm, Nat.add_left_comm]

/-! ### Register files -/

theorem entry_eq_getElem {w n : Nat} (v : Vector (BitVec w) n) {i : Nat} (h : i < n) : entry v i = v[i] := by
  simp [entry, h]

theorem entry_tabulate {w n : Nat} (f : Nat → BitVec w) {i : Nat} (h : i < n) : entry (tabulate n f) i = f i := by
  show (tabulateFrom f n 0).getD i 0 = f i
  simpa using getD_tabulateFrom f n 0 i 0 h

/-- Two register files with the same entries are equal. -/
theorem ext_entry {w n : Nat} {u v : Vector (BitVec w) n} (h : ∀ i, i < n → entry u i = entry v i) : u = v := by
  apply Vector.ext
  intro i hi
  simpa [entry_eq_getElem _ hi] using h i hi

theorem tabulate_entry {w n : Nat} (v : Vector (BitVec w) n) : tabulate n (entry v) = v :=
  ext_entry fun _ h => entry_tabulate _ h

theorem tabulate_congr {w n : Nat} {f g : Nat → BitVec w} (h : ∀ i, i < n → f i = g i) :
    tabulate n f = tabulate n g :=
  ext_entry fun i hi => by rw [entry_tabulate _ hi, entry_tabulate _ hi, h i hi]

theorem entry_replicate {w n : Nat} (x : BitVec w) {i : Nat} (h : i < n) : entry (Vector.replicate n x) i = x := by
  simp [entry_eq_getElem _ h]

theorem entry_set {w n : Nat} (v : Vector (BitVec w) n) (k : Nat) (x : BitVec w) {i : Nat} (h : i < n) :
    entry (v.setIfInBounds k x) i = if i = k then x else entry v i := by
  rw [entry_eq_getElem _ h, entry_eq_getElem _ h, Vector.getElem_setIfInBounds]
  by_cases hk : i = k
  · subst hk; simp
  · simp [hk, Ne.symm hk]

/-! ### Words and their bytes (00_scope.md R10) -/

/-- Bit `j` of byte `i` of a word is bit `8i + j` of the word. -/
theorem getLsbD_byteOf (w : Word) (i j : Nat) : (byteOf w i).getLsbD j = (decide (j < 8) && w.getLsbD (8 * i + j)) := by
  simp [byteOf]

/-- `bytes64` undoes `le64`. -/
theorem byteOf_le64 (f : Nat → Byte) {i : Nat} (h : i < 8) : byteOf (le64 f) i = f i := by
  apply BitVec.eq_of_getLsbD_eq
  intro j hj
  rw [getLsbD_byteOf]
  simp only [le64, BitVec.getLsbD_append, hj, decide_true, Bool.true_and]
  interval_cases i <;> interval_cases j <;> rfl

/-- `le64` undoes `bytes64`. -/
theorem le64_byteOf (w : Word) : le64 (byteOf w) = w := by
  apply BitVec.eq_of_getLsbD_eq
  intro j hj
  simp only [le64, BitVec.getLsbD_append, getLsbD_byteOf]
  interval_cases j <;> simp

theorem le64_congr {f g : Nat → Byte} (h : ∀ i, i < 8 → f i = g i) : le64 f = le64 g := by
  simp [le64, h 0, h 1, h 2, h 3, h 4, h 5, h 6, h 7]

/-- Words with the same eight bytes are equal. -/
theorem word_ext_bytes {u v : Word} (h : ∀ i, i < 8 → byteOf u i = byteOf v i) : u = v := by
  rw [← le64_byteOf u, ← le64_byteOf v]
  exact le64_congr h

@[simp] theorem length_bytes64 (w : Word) : (bytes64 w).length = 8 := length_tabulateFrom _ _ _

/-! ### Halves of a 64-bit register (10_state.md R38) -/

theorem getLsbD_setLoHalf (w : Word) (v : Word32) (i : Nat) :
    (setLoHalf w v).getLsbD i = if i < 32 then v.getLsbD i else (hiHalf w).getLsbD (i - 32) :=
  BitVec.getLsbD_append

theorem getLsbD_setHiHalf (w : Word) (v : Word32) (i : Nat) :
    (setHiHalf w v).getLsbD i = if i < 32 then (loHalf w).getLsbD i else v.getLsbD (i - 32) :=
  BitVec.getLsbD_append

@[simp] theorem loHalf_setLoHalf (w : Word) (v : Word32) : loHalf (setLoHalf w v) = v := by
  apply BitVec.eq_of_getLsbD_eq
  intro i hi
  simp [loHalf, getLsbD_setLoHalf, hi]

@[simp] theorem hiHalf_setLoHalf (w : Word) (v : Word32) : hiHalf (setLoHalf w v) = hiHalf w := by
  apply BitVec.eq_of_getLsbD_eq
  intro i hi
  simp [hiHalf, getLsbD_setLoHalf, hi]

@[simp] theorem hiHalf_setHiHalf (w : Word) (v : Word32) : hiHalf (setHiHalf w v) = v := by
  apply BitVec.eq_of_getLsbD_eq
  intro i hi
  simp [hiHalf, getLsbD_setHiHalf, hi]

@[simp] theorem loHalf_setHiHalf (w : Word) (v : Word32) : loHalf (setHiHalf w v) = loHalf w := by
  apply BitVec.eq_of_getLsbD_eq
  intro i hi
  simp [loHalf, getLsbD_setHiHalf, hi]

end Sys2Proof.Machine
end

