-- ==== Sys2Proof/Laws/Compress.lean ====
section
/-! SUPPORT. The steps of the compressor entry by entry. -/

namespace Sys2Proof.Machine

theorem entry_setWord (s : Chain) (k : Nat) (x : Word) {i : Nat} (h : i < 8) :
    entry (setWord s k x) i = if i = k then x else entry s i := entry_set s k x h

theorem entry_substitute (t : SBox) (b : Block) {i : Nat} (h : i < 64) :
    entry (substitute t b) i = entry t (entry b i).toNat := entry_tabulate _ h

theorem entry_rotationMix (r : Nat) (s m : Chain) {k : Nat} (h : k < 8) :
    entry (rotationMix r s m) k = entry s k ^^^ rotl64 (entry m k) (rotAmount r (entry m k)) := entry_tabulate _ h

theorem entry_feedForward (h s : Chain) {i : Nat} (hi : i < 8) :
    entry (feedForward h s) i = entry h i ^^^ entry s i := entry_tabulate _ hi

/-- A byte of a message word (42_sbox_compress.md R144). -/
theorem byte_loadWords (b : Block) {k j : Nat} (hk : k < 8) (hj : j < 8) :
    (entry (loadWords b) k).extractLsb' (8 * j) 8 = entry b (8 * k + j) := by
  unfold loadWords
  rw [entry_tabulate _ hk]
  exact byteOf_le64 _ hj

/-- The rotation amount of this hardware is bits 61:56 (42_sbox_compress.md R145). -/
theorem rotAmount_56 (m : Word) : rotAmount 56 m = (m.extractLsb' 56 6).toNat := by
  unfold rotAmount
  rw [BitVec.toNat_and, BitVec.toNat_ushiftRight, BitVec.extractLsb'_toNat]
  exact Nat.and_two_pow_sub_one_eq_mod _ 6

theorem entry_shiftWords (s : Chain) {i : Nat} (h : i < 8) : entry (shiftWords s) i = entry s ((i + 1) % 8) :=
  entry_tabulate _ h

end Sys2Proof.Machine
end

