-- ==== Sys2Proof/Laws/Memory.lean ====
section
/-! SUPPORT. Host memory: read after write, the canonical form and that every operation keeps it. -/

namespace Sys2Proof.Machine

/-- Below the first address of a canonical tail nothing is listed. -/
theorem Memory.read_below : ∀ (m : Memory) (lo a : Nat), m.wfFrom lo = true → a < lo → m.read a = Config.unlistedByte
  | [], _, _, _, _ => rfl
  | (b, w) :: m, lo, a, h, ha => by
    simp only [Memory.wfFrom, Bool.and_eq_true, decide_eq_true_eq] at h
    have hne : a ≠ b := by omega
    simp [Memory.read, hne, Memory.read_below m (b + 1) a h.2 (by omega)]

/-- A byte just written reads as written (in any canonical memory). -/
theorem Memory.read_write_same : ∀ (m : Memory) (lo a : Nat) (v : Byte), m.wfFrom lo = true →
    (m.write a v).read a = v
  | [], _, a, v, _ => by
    by_cases h : v = Config.unlistedByte <;> simp [Memory.write, h, Memory.read]
  | (b, w) :: m, lo, a, v, hw => by
    simp only [Memory.wfFrom, Bool.and_eq_true, decide_eq_true_eq] at hw
    unfold Memory.write
    split
    · rename_i hlt
      have hne : a ≠ b := by omega
      split
      · rename_i hv
        simp [Memory.read, hne, hv, Memory.read_below m (b + 1) a hw.2 (by omega)]
      · simp [Memory.read]
    · split
      · rename_i heq
        split
        · rename_i hv
          rw [hv]
          exact Memory.read_below m (b + 1) a hw.2 (by omega)
        · simp [Memory.read]
      · rename_i _ hne
        simp only [Memory.read, hne, if_false]
        exact Memory.read_write_same m (b + 1) a v hw.2

/-- A write leaves every other byte alone. -/
theorem Memory.read_write_other : ∀ (m : Memory) (a c : Nat) (v : Byte), c ≠ a → (m.write a v).read c = m.read c
  | [], a, c, v, h => by
    by_cases hv : v = Config.unlistedByte <;> simp [Memory.write, hv, Memory.read, h]
  | (b, w) :: m, a, c, v, h => by
    unfold Memory.write
    split
    · split <;> simp [Memory.read, h]
    · split
      · rename_i heq
        subst heq
        split <;> simp [Memory.read, h]
      · simp only [Memory.read, Memory.read_write_other m a c v h]

/-- A write keeps the canonical form. -/
theorem Memory.wfFrom_write : ∀ (m : Memory) (lo a : Nat) (v : Byte), m.wfFrom lo = true → lo ≤ a → a < 2 ^ 64 →
    (m.write a v).wfFrom lo = true
  | [], lo, a, v, _, h1, h2 => by
    by_cases hv : v = Config.unlistedByte
    · simp [Memory.write, hv, Memory.wfFrom]
    · simp only [Memory.write, hv, if_false, Memory.wfFrom, Bool.and_eq_true, decide_eq_true_eq]
      exact ⟨⟨⟨h1, h2⟩, by simpa using hv⟩, trivial⟩
  | (b, w) :: m, lo, a, v, hw, h1, h2 => by
    have hw0 := hw
    simp only [Memory.wfFrom, Bool.and_eq_true, decide_eq_true_eq] at hw
    obtain ⟨⟨⟨hb1, hb2⟩, hw3⟩, hm⟩ := hw
    unfold Memory.write
    split
    · split
      · exact hw0
      · rename_i hlt hv
        simp only [Memory.wfFrom, Bool.and_eq_true, decide_eq_true_eq]
        exact ⟨⟨⟨h1, h2⟩, by simpa using hv⟩, ⟨⟨by omega, hb2⟩, hw3⟩, hm⟩
    · split
      · rename_i heq
        subst heq
        split
        · cases m with
          | nil => rfl
          | cons c m =>
            simp only [Memory.wfFrom, Bool.and_eq_true, decide_eq_true_eq] at hm ⊢
            exact ⟨⟨⟨by omega, hm.1.1.2⟩, hm.1.2⟩, hm.2⟩
        · rename_i hv
          simp only [Memory.wfFrom, Bool.and_eq_true, decide_eq_true_eq]
          exact ⟨⟨⟨hb1, hb2⟩, by simpa using hv⟩, hm⟩
      · rename_i hlt hne
        simp only [Memory.wfFrom, Bool.and_eq_true, decide_eq_true_eq]
        exact ⟨⟨⟨hb1, hb2⟩, hw3⟩, Memory.wfFrom_write m (b + 1) a v hm (by omega) h2⟩

theorem Memory.wf_write {m : Memory} {a : Nat} (v : Byte) (h : m.wf = true) (ha : a < 2 ^ 64) :
    (m.write a v).wf = true := Memory.wfFrom_write m 0 a v h (Nat.zero_le _) ha

/-- Storing a byte string inside the address space keeps the canonical form. -/
theorem Memory.wf_writeBytes : ∀ (vs : List Byte) (m : Memory) (a : Nat), m.wf = true → a + vs.length ≤ 2 ^ 64 →
    (m.writeBytes a vs).wf = true
  | [], _, _, h, _ => h
  | v :: vs, m, a, h, ha => by
    simp only [List.length_cons] at ha
    exact Memory.wf_writeBytes vs (m.write a v) (a + 1) (Memory.wf_write v h (by omega)) (by omega)

/-- Every byte outside the stored range reads as before. -/
theorem Memory.read_writeBytes_outside : ∀ (vs : List Byte) (m : Memory) (a c : Nat), c < a ∨ a + vs.length ≤ c →
    (m.writeBytes a vs).read c = m.read c
  | [], _, _, _, _ => rfl
  | v :: vs, m, a, c, h => by
    simp only [List.length_cons] at h
    rw [Memory.writeBytes, Memory.read_writeBytes_outside vs (m.write a v) (a + 1) c (by omega),
      Memory.read_write_other m a c v (by omega)]

/-- Byte `i` of the stored range reads as stored. -/
theorem Memory.read_writeBytes_inside : ∀ (vs : List Byte) (m : Memory) (a i : Nat), m.wf = true →
    a + vs.length ≤ 2 ^ 64 → (h : i < vs.length) → (m.writeBytes a vs).read (a + i) = vs[i]
  | [], _, _, _, _, _, h => absurd h (Nat.not_lt_zero _)
  | v :: vs, m, a, 0, hw, ha, _ => by
    rw [Memory.writeBytes, Memory.read_writeBytes_outside vs _ (a + 1) (a + 0) (by omega)]
    exact Memory.read_write_same m 0 a v hw
  | v :: vs, m, a, i + 1, hw, ha, h => by
    simp only [List.length_cons] at ha h
    have := Memory.read_writeBytes_inside vs (m.write a v) (a + 1) i (Memory.wf_write v hw (by omega)) (by omega)
      (by omega)
    rw [Memory.writeBytes, show a + (i + 1) = a + 1 + i by omega, this]
    rfl

@[simp] theorem Memory.length_readBytes (m : Memory) (a n : Nat) : (m.readBytes a n).length = n :=
  length_tabulateFrom _ _ _

theorem Memory.getElem_readBytes (m : Memory) (a n i : Nat) (h : i < (m.readBytes a n).length) :
    (m.readBytes a n)[i] = m.read (a + i) := getElem_tabulateFrom m.read n a i h

/-- What was stored is read back. -/
theorem Memory.readBytes_writeBytes (m : Memory) (a : Nat) (vs : List Byte) (hw : m.wf = true)
    (ha : a + vs.length ≤ 2 ^ 64) : (m.writeBytes a vs).readBytes a vs.length = vs := by
  apply List.ext_getElem (by simp)
  intro i h1 h2
  rw [Memory.getElem_readBytes]
  exact Memory.read_writeBytes_inside vs m a i hw ha h2

/-- Adjacent reads join. -/
theorem Memory.readBytes_add (m : Memory) (a k n : Nat) :
    m.readBytes a (k + n) = m.readBytes a k ++ m.readBytes (a + k) n := tabulateFrom_add m.read k n a

/-- Memories that agree on a range give the same bytes. -/
theorem Memory.readBytes_congr {m m' : Memory} {a n : Nat} (h : ∀ i, i < n → m.read (a + i) = m'.read (a + i)) :
    m.readBytes a n = m'.readBytes a n := by
  refine tabulateFrom_congr fun j h1 h2 => ?_
  have := h (j - a) (by omega)
  rwa [show a + (j - a) = j by omega] at this

end Sys2Proof.Machine
end

