-- ==== Sys2Proof/Laws/Sponge.lean ====
section
/-! SUPPORT. The sponge functions: what they keep, and how they compose. -/

namespace Sys2Proof.Machine

@[simp] theorem absorb_nil (p : Sponge) : p.absorb [] = p := rfl

@[simp] theorem absorb_cons (p : Sponge) (v : Byte) (m : List Byte) :
    p.absorb (v :: m) = (p.absorbByte v).absorb m := rfl

theorem absorbByte_phase (p : Sponge) (v : Byte) : (p.absorbByte v).phase = p.phase := by
  unfold Sponge.absorbByte
  split <;> rfl

/-- After a byte is absorbed `RATE_USED` is at most 167 (10_state.md R24). -/
theorem absorbByte_rate (p : Sponge) (v : Byte) : (p.absorbByte v).rateUsed.val ≤ 167 := by
  unfold Sponge.absorbByte
  split
  · simp only; omega
  · simp

@[simp] theorem absorb_phase : ∀ (m : List Byte) (p : Sponge), (p.absorb m).phase = p.phase
  | [], _ => rfl
  | v :: m, p => by rw [absorb_cons, absorb_phase m, absorbByte_phase]

theorem absorb_rate : ∀ (m : List Byte) (p : Sponge), p.rateUsed.val ≤ 167 → (p.absorb m).rateUsed.val ≤ 167
  | [], _, h => h
  | v :: m, p, _ => absorb_rate m (p.absorbByte v) (absorbByte_rate p v)

theorem squeezeByte_phase (p : Sponge) : p.squeezeByte.2.phase = p.phase := by
  unfold Sponge.squeezeByte
  split <;> rfl

@[simp] theorem squeeze_zero (p : Sponge) : Sponge.squeeze 0 p = ([], p) := rfl

theorem squeeze_succ (n : Nat) (p : Sponge) :
    Sponge.squeeze (n + 1) p =
      (p.squeezeByte.1 :: (Sponge.squeeze n p.squeezeByte.2).1, (Sponge.squeeze n p.squeezeByte.2).2) := rfl

@[simp] theorem squeeze_phase : ∀ (n : Nat) (p : Sponge), (Sponge.squeeze n p).2.phase = p.phase
  | 0, _ => rfl
  | n + 1, p => by rw [squeeze_succ, squeeze_phase n, squeezeByte_phase]

@[simp] theorem length_squeeze : ∀ (n : Nat) (p : Sponge), (Sponge.squeeze n p).1.length = n
  | 0, _ => rfl
  | n + 1, p => by simp [squeeze_succ, length_squeeze n]

@[simp] theorem length_shake128 (m : List Byte) (n : Nat) : (shake128 m n).length = n := length_squeeze n _

/-- Absorbing two byte strings is absorbing the first, then the second (41_sponge.md R123). -/
theorem absorb_append (p : Sponge) (m n : List Byte) : p.absorb (m ++ n) = (p.absorb m).absorb n := by
  simp [Sponge.absorb, List.foldl_append]

/-- Squeezing within the rate copies the rate and permutes nothing (41_sponge.md R125). -/
theorem squeeze_within_rate : ∀ (n : Nat) (p : Sponge), p.rateUsed.val + n ≤ 168 →
    (Sponge.squeeze n p).1 = tabulateFrom (fun j => stateByte p.lanes j) n p.rateUsed.val ∧ (Sponge.squeeze n p).2.lanes = p.lanes ∧
    (Sponge.squeeze n p).2.rateUsed.val = p.rateUsed.val + n := by
  intro n; induction n with
  | zero => intro p _; exact ⟨rfl, rfl, rfl⟩
  | succ n ih =>
    intro p h
    have e : p.squeezeByte = (stateByte p.lanes p.rateUsed.val, { p with rateUsed := ⟨p.rateUsed.val + 1, by omega⟩ }) := by
      unfold Sponge.squeezeByte; rw [dif_pos (by omega)]
    rw [squeeze_succ, e]
    obtain ⟨h1, h2, h3⟩ := ih { p with rateUsed := ⟨p.rateUsed.val + 1, by omega⟩ } (by simp only; omega)
    refine ⟨by rw [h1]; rfl, h2, by rw [h3]; simp only; omega⟩

end Sys2Proof.Machine
end

