-- ==== Sys2Proof/Laws/State.lean ====
section
/-! SUPPORT. One lemma per field per update, each true by unfolding once. -/

namespace Sys2Proof.Machine

section complete
variable (s : State) (c : ResultCode)
@[simp] theorem complete_sponge : (s.complete c).sponge = s.sponge := rfl
@[simp] theorem complete_ctx : (s.complete c).ctx = s.ctx := rfl
@[simp] theorem complete_busy : (s.complete c).status.busy = false := rfl
@[simp] theorem complete_isDone : (s.complete c).status.isDone = true := rfl
@[simp] theorem complete_overrun : (s.complete c).status.overrun = s.status.overrun := rfl
@[simp] theorem complete_result : (s.complete c).result = c.bits := rfl
@[simp] theorem complete_operands : (s.complete c).operands = s.operands := rfl
@[simp] theorem complete_legacy0 : (s.complete c).legacy0 = s.legacy0 := rfl
@[simp] theorem complete_legacy1 : (s.complete c).legacy1 = s.legacy1 := rfl
@[simp] theorem complete_latch : (s.complete c).latch = s.latch := rfl
@[simp] theorem complete_mem : (s.complete c).mem = s.mem := rfl
@[simp] theorem complete_platform : (s.complete c).platform = s.platform := rfl
@[simp] theorem complete_hostOps : (s.complete c).hostOps = s.hostOps := rfl
@[simp] theorem complete_turns : (s.complete c).turns = s.turns := rfl
@[simp] theorem complete_hostReads : (s.complete c).hostReads = s.hostReads := rfl
@[simp] theorem complete_cleaned : (s.complete c).cleaned = s.cleaned := rfl
@[simp] theorem complete_stale : (s.complete c).stale = s.stale := rfl
@[simp] theorem complete_draws : (s.complete c).draws = s.draws := rfl
end complete

section setLanes
variable (s : State) (a : Lanes)
@[simp] theorem setLanes_lanes : (s.setLanes a).sponge.lanes = a := rfl
@[simp] theorem setLanes_rateUsed : (s.setLanes a).sponge.rateUsed = s.sponge.rateUsed := rfl
@[simp] theorem setLanes_phase : (s.setLanes a).sponge.phase = s.sponge.phase := rfl
@[simp] theorem setLanes_ctx : (s.setLanes a).ctx = s.ctx := rfl
@[simp] theorem setLanes_status : (s.setLanes a).status = s.status := rfl
@[simp] theorem setLanes_result : (s.setLanes a).result = s.result := rfl
@[simp] theorem setLanes_latch : (s.setLanes a).latch = s.latch := rfl
@[simp] theorem setLanes_mem : (s.setLanes a).mem = s.mem := rfl
@[simp] theorem setLanes_platform : (s.setLanes a).platform = s.platform := rfl
end setLanes

section setH
variable (s : State) (h : Chain)
@[simp] theorem setH_h : (s.setH h).ctx.h = h := rfl
@[simp] theorem setH_sbox : (s.setH h).ctx.sbox = s.ctx.sbox := rfl
@[simp] theorem setH_buf : (s.setH h).ctx.buf = s.ctx.buf := rfl
@[simp] theorem setH_bufLen : (s.setH h).ctx.bufLen = s.ctx.bufLen := rfl
@[simp] theorem setH_totalLen : (s.setH h).ctx.totalLen = s.ctx.totalLen := rfl
@[simp] theorem setH_sponge : (s.setH h).sponge = s.sponge := rfl
@[simp] theorem setH_status : (s.setH h).status = s.status := rfl
@[simp] theorem setH_mem : (s.setH h).mem = s.mem := rfl
end setH

section setSbox
variable (s : State) (t : SBox)
@[simp] theorem setSbox_sbox : (s.setSbox t).ctx.sbox = t := rfl
@[simp] theorem setSbox_h : (s.setSbox t).ctx.h = s.ctx.h := rfl
@[simp] theorem setSbox_buf : (s.setSbox t).ctx.buf = s.ctx.buf := rfl
@[simp] theorem setSbox_bufLen : (s.setSbox t).ctx.bufLen = s.ctx.bufLen := rfl
@[simp] theorem setSbox_totalLen : (s.setSbox t).ctx.totalLen = s.ctx.totalLen := rfl
@[simp] theorem setSbox_sponge : (s.setSbox t).sponge = s.sponge := rfl
@[simp] theorem setSbox_status : (s.setSbox t).status = s.status := rfl
@[simp] theorem setSbox_mem : (s.setSbox t).mem = s.mem := rfl
end setSbox

section writeBytes
variable (s : State) (a : Addr) (vs : List Byte)
@[simp] theorem writeBytes_mem : (s.writeBytes a vs).mem = s.mem.writeBytes a.toNat vs := rfl
@[simp] theorem writeBytes_sponge : (s.writeBytes a vs).sponge = s.sponge := rfl
@[simp] theorem writeBytes_ctx : (s.writeBytes a vs).ctx = s.ctx := rfl
@[simp] theorem writeBytes_status : (s.writeBytes a vs).status = s.status := rfl
@[simp] theorem writeBytes_latch : (s.writeBytes a vs).latch = s.latch := rfl
@[simp] theorem writeBytes_platform : (s.writeBytes a vs).platform = s.platform := rfl
end writeBytes

section stream
variable (s : State) (k : List Byte) (d : Addr)
@[simp] theorem streamInit_ctx : (s.streamInit k).ctx = s.ctx.streamInit k := rfl
@[simp] theorem streamInit_sponge : (s.streamInit k).sponge = Sponge.init := rfl
@[simp] theorem streamInit_mem : (s.streamInit k).mem = s.mem := rfl
@[simp] theorem streamInit_status : (s.streamInit k).status = s.status := rfl
@[simp] theorem streamUpdate_ctx : (s.streamUpdate k).ctx = s.ctx.streamUpdate k := rfl
@[simp] theorem streamUpdate_sponge : (s.streamUpdate k).sponge = s.sponge := rfl
@[simp] theorem streamUpdate_mem : (s.streamUpdate k).mem = s.mem := rfl
@[simp] theorem streamUpdate_status : (s.streamUpdate k).status = s.status := rfl
@[simp] theorem streamFinal_ctx : (s.streamFinal d).ctx = Context.zero := rfl
@[simp] theorem streamFinal_sponge : (s.streamFinal d).sponge = s.sponge := by
  simp only [State.streamFinal, State.writeBytes]
@[simp] theorem streamFinal_mem : (s.streamFinal d).mem = s.mem.writeBytes d.toNat s.ctx.digest := by
  simp only [State.streamFinal, State.writeBytes]
@[simp] theorem streamFinal_status : (s.streamFinal d).status = s.status := by
  simp only [State.streamFinal, State.writeBytes]
end stream

section setOperands
variable (s : State) (o : Operands)
@[simp] theorem setOperands_operands : (s.setOperands o).operands = o := rfl
@[simp] theorem setOperands_sponge : (s.setOperands o).sponge = s.sponge := rfl
@[simp] theorem setOperands_ctx : (s.setOperands o).ctx = s.ctx := rfl
@[simp] theorem setOperands_status : (s.setOperands o).status = s.status := rfl
@[simp] theorem setOperands_result : (s.setOperands o).result = s.result := rfl
@[simp] theorem setOperands_latch : (s.setOperands o).latch = s.latch := rfl
@[simp] theorem setOperands_mem : (s.setOperands o).mem = s.mem := rfl
end setOperands

end Sys2Proof.Machine
end

