-- ==== Sys2Proof/Laws/Stream.lean ====
section
/-! SUPPORT. The streaming functions: lengths, and what they leave alone. -/

namespace Sys2Proof.Machine

@[simp] theorem length_digestBytes (h : Chain) : (digestBytes h).length = 32 := by
  simp [digestBytes]

/-- The digest is always 32 bytes (43_stream.md R180). -/
@[simp] theorem length_digest (c : Context) : c.digest.length = 32 := length_digestBytes _

@[simp] theorem entry_bytesVector (n : Nat) (bs : List Byte) {i : Nat} (h : i < n) :
    entry (bytesVector n bs) i = bs.getD i 0 := entry_tabulate _ h

/-- The bytes left after `q` whole blocks. -/
theorem compressBlocks_rest (sbox : SBox) : ∀ (q : Nat) (h : Chain) (d : List Byte),
    (compressBlocks sbox q h d).2 = d.drop (64 * q)
  | 0, _, _ => by simp [compressBlocks]
  | q + 1, h, d => by
    rw [compressBlocks, compressBlocks_rest sbox q, List.drop_drop]
    congr 1
    omega

theorem getD_drop (x : List Byte) (k j : Nat) : (x.drop k).getD j 0 = x.getD (k + j) 0 := by
  simp [List.getD]

theorem getD_take (x : List Byte) (k j : Nat) (h : j < k) : (x.take k).getD j 0 = x.getD j 0 := by
  simp [List.getD, h]

/-- The chaining state after `q` whole blocks. -/
theorem compressBlocks_chain (sbox : SBox) : ∀ (q : Nat) (h : Chain) (d : List Byte),
    (compressBlocks sbox q h d).1 =
      (List.range q).foldl (fun h b => compress h sbox (tabulate 64 fun j => d.getD (64 * b + j) 0)) h
  | 0, h, d => rfl
  | q + 1, h, d => by
    rw [compressBlocks, compressBlocks_chain sbox q, List.range_succ_eq_map, List.foldl_cons, List.foldl_map]
    have e0 : bytesVector 64 (d.take 64) = tabulate 64 fun j => d.getD (64*0+j) 0 :=
      tabulate_congr fun i hi => by rw [getD_take _ _ _ hi]; simp
    rw [e0]
    have ef : ∀ b, (tabulate 64 fun j => (d.drop 64).getD (64*b+j) 0 : Block) = tabulate 64 fun j => d.getD (64*(b+1)+j) 0 :=
      fun b => tabulate_congr fun j hj => by rw [getD_drop]; congr 1; omega
    simp only [ef]

theorem entry_fillFrom (buf : Block) (n : Nat) (d : List Byte) {j : Nat} (h : j < 64) :
    entry (fillFrom buf n d) j = if n ≤ j ∧ j < n + d.length then d.getD (j - n) 0 else entry buf j :=
  entry_tabulate _ h

theorem entry_padBlock (b : Block) (n : Nat) {j : Nat} (h : j < 64) :
    entry (padBlock b n) j = if j < n then entry b j else if j = n then 0x80 else 0 := entry_tabulate _ h

theorem entry_withLength (b : Block) (t : Word) {j : Nat} (h : j < 64) :
    entry (withLength b t) j = if j < 56 then entry b j else byteOf (t * 8) (j - 56) := entry_tabulate _ h

/-- Byte `j` of the digest (43_stream.md R173 step 5). -/
theorem getD_digestBytes (h : Chain) {j : Nat} (hj : j < 32) :
    (digestBytes h).getD j 0 = (entry h (j / 8)).extractLsb' (8 * (j % 8)) 8 := by
  unfold digestBytes bytes64
  interval_cases j <;> rfl

/-- A byte string of the right length is what its register file holds. -/
theorem toList_bytesVector (n : Nat) (bs : List Byte) (h : bs.length = n) : (bytesVector n bs).toList = bs := by
  show tabulateFrom (fun i => bs.getD i 0) n 0 = bs
  rw [← h]
  exact tabulateFrom_getD 0 bs

@[simp] theorem absorbBlocks_sbox (c : Context) (d : List Byte) : (c.absorbBlocks d).sbox = c.sbox := rfl

@[simp] theorem absorbBlocks_totalLen (c : Context) (d : List Byte) : (c.absorbBlocks d).totalLen = c.totalLen := rfl

@[simp] theorem absorbData_sbox (c : Context) (d : List Byte) : (c.absorbData d).sbox = c.sbox := by
  unfold Context.absorbData
  split
  · split <;> rfl
  · rfl

@[simp] theorem absorbData_totalLen (c : Context) (d : List Byte) : (c.absorbData d).totalLen = c.totalLen := by
  unfold Context.absorbData
  split
  · split <;> rfl
  · rfl

@[simp] theorem streamUpdate_sbox (c : Context) (d : List Byte) : (c.streamUpdate d).sbox = c.sbox :=
  absorbData_sbox _ _

@[simp] theorem streamUpdate_totalLen (c : Context) (d : List Byte) :
    (c.streamUpdate d).totalLen = c.totalLen + BitVec.ofNat 64 d.length := absorbData_totalLen _ _

end Sys2Proof.Machine
end

