-- ==== Sys2Proof/Laws/Exec.lean ====
section
/-! SUPPORT. What `exec` can do, said once: `exec_eq` gives every command as checks, then admission, then its
effect and completion; the inversion lemmas below it are what later proofs cite. -/

namespace Sys2Proof.Machine

/-! ### Admission of operand ranges -/

@[simp] theorem stuckOn_nil (p : Platform) : p.stuckOn [] = none := rfl

@[simp] theorem access_nil (s : State) (go : StepResult) : s.access [] go = go := rfl

/-- Admitted operands: the command goes on. -/
theorem access_of_admitted {s : State} {ops : List Operand} (go : StepResult)
    (h1 : s.platform.stuckOn ops = none) (h2 : ops.any s.platform.hasDevice = false) : s.access ops go = go := by
  simp [State.access, h1, h2]

/-- What an access can answer. -/
theorem access_cases (s : State) (ops : List Operand) (go : StepResult) :
    (∃ why, s.platform.stuckOn ops = some why ∧ s.access ops go = .fault (.engineStuck why)) ∨
    (s.platform.stuckOn ops = none ∧ ops.any s.platform.hasDevice = true ∧
      s.access ops go = .refused .deviceOperand) ∨
    (s.platform.stuckOn ops = none ∧ ops.any s.platform.hasDevice = false ∧ s.access ops go = go) := by
  unfold State.access
  cases h : s.platform.stuckOn ops with
  | some why => exact .inl ⟨why, rfl, rfl⟩
  | none => cases h2 : ops.any s.platform.hasDevice <;> simp

/-- A range of operands that are not stuck ends within the address space. -/
theorem range_fits_of_not_stuck {p : Platform} {ops : List Operand} (h : p.stuckOn ops = none) :
    ∀ o ∈ ops, 0 < o.range.len → o.range.base + o.range.len ≤ 2 ^ 64 := by
  intro o ho hl
  by_contra hc
  have : ops.any (fun o => o.range.wraps) = true :=
    List.any_eq_true.2 ⟨o, ho, by simp only [Range.wraps, decide_eq_true_eq]; omega⟩
  simp [Platform.stuckOn, this] at h

/-! ### The effects -/

/-- What a command does to the state once its checks have passed and its operands are admitted; completion is
apart. -/
def effect (i : Instr) (s : State) : State :=
  let o := s.latch.operands
  match i with
  | .qvInit => s.streamInit (s.readBytes o.keyAddr o.keyLen.toNat)
  | .qvUpdate => s.streamUpdate (s.readBytes o.srcAddr o.srcLen.toNat)
  | .qvFinal => s.streamFinal o.dstAddr
  | .qvHash => ((s.streamInit (s.readBytes o.keyAddr o.keyLen.toNat)).streamUpdate
      (s.readBytes o.srcAddr o.srcLen.toNat)).streamFinal o.dstAddr
  | .vortexHash => ((s.streamInit (s.readBytes o.keyAddr o.keyLen.toNat)).streamUpdate
      (s.readBytes o.srcAddr o.srcLen.toNat)).streamFinal o.dstAddr
  | .keccakF => s.setLanes (keccakF s.sponge.lanes)
  | .spongeInit => { s with sponge := Sponge.init }
  | .spongeAbsorb => { s with sponge := s.sponge.absorb (s.readBytes o.srcAddr o.srcLen.toNat) }
  | .spongeFinal => { s with sponge := s.sponge.finalize }
  | .spongeSqueeze =>
    let out := Sponge.squeeze o.dstLen.toNat s.sponge
    { s with sponge := out.2 }.writeBytes o.dstAddr out.1
  | .lanesLoad => s.setLanes (lanesOfBytes fun k => s.mem.read (o.srcAddr.toNat + k))
  | .qvCompress => s.setH (compress s.ctx.h s.ctx.sbox (tabulate 64 fun i => s.mem.read (o.srcAddr.toNat + i)))
  | .sboxLoad => s.setSbox (tabulate 256 fun i => s.mem.read (o.srcAddr.toNat + i))
  | .hstateLoad => s.setH (tabulate 8 fun k => le64 fun j => s.mem.read (o.srcAddr.toNat + 8 * k + j))

/-- Every command is its checks in the order of 60_exceptions.md R206, then the admission of its operand ranges,
then its effect and completion with `OK`. -/
theorem exec_eq (i : Instr) (s : State) :
    exec i s =
      if nullFault i s.latch.operands = true then .next (s.complete .eNull)
      else if phaseFault i s.sponge.phase = true then .next (s.complete .ePhase)
      else s.access (footprint i s.latch.operands) (.next ((effect i s).complete .ok)) := by
  cases i <;>
    simp only [exec, execQvInit, execQvUpdate, execQvFinal, execQvHash, execVortexHash, oneShotHash, execKeccakF,
      execLanesLoad, execSpongeInit, execSpongeAbsorb, execSpongeFinal, execSpongeSqueeze, execQvCompress,
      execSboxLoad, execHstateLoad, nullFault, nullSpan, phaseFault, footprint, effect, access_nil,
      Bool.and_eq_true, Bool.or_eq_true, beq_iff_eq, bne_iff_ne, ne_eq, if_false, Bool.false_eq_true] <;>
    split_ifs <;> tauto

/-- What a command that answers a next state has done. -/
theorem exec_next_cases {i : Instr} {s t : State} (h : exec i s = .next t) :
    (nullFault i s.latch.operands = true ∧ t = s.complete .eNull) ∨
    (nullFault i s.latch.operands = false ∧ phaseFault i s.sponge.phase = true ∧ t = s.complete .ePhase) ∨
    (s.Accepts i ∧ s.Admits i ∧ t = (effect i s).complete .ok) := by
  rw [exec_eq] at h
  split at h
  · rename_i hn
    exact .inl ⟨hn, by injection h with h; exact h.symm⟩
  · rename_i hn
    simp only [Bool.not_eq_true] at hn
    split at h
    · rename_i hp
      exact .inr (.inl ⟨hn, hp, by injection h with h; exact h.symm⟩)
    · rename_i hp
      simp only [Bool.not_eq_true] at hp
      obtain ⟨why, _, ha⟩ | ⟨_, _, ha⟩ | ⟨h1, h2, ha⟩ := access_cases s (footprint i s.latch.operands)
        (.next ((effect i s).complete .ok))
      · rw [ha] at h; cases h
      · rw [ha] at h; cases h
      · rw [ha] at h
        exact .inr (.inr ⟨⟨hn, hp⟩, ⟨h1, h2⟩, by injection h with h; exact h.symm⟩)

/-- A command whose checks pass and whose operands are admitted completes with `OK`. -/
theorem exec_of_accepts {i : Instr} {s : State} (h : s.Accepts i) (ha : s.Admits i) :
    exec i s = .next ((effect i s).complete .ok) := by
  rw [exec_eq, if_neg (by simp [h.1]), if_neg (by simp [h.2]), access_of_admitted _ ha.1 ha.2]

/-! ### What no effect changes -/

section effect
variable (i : Instr) (s : State)
@[simp] theorem effect_status : (effect i s).status = s.status := by
  cases i <;> simp only [effect, State.streamFinal, State.streamInit, State.streamUpdate, State.writeBytes,
    State.setLanes, State.setH, State.setSbox]
@[simp] theorem effect_result : (effect i s).result = s.result := by
  cases i <;> simp only [effect, State.streamFinal, State.streamInit, State.streamUpdate, State.writeBytes,
    State.setLanes, State.setH, State.setSbox]
@[simp] theorem effect_operands : (effect i s).operands = s.operands := by
  cases i <;> simp only [effect, State.streamFinal, State.streamInit, State.streamUpdate, State.writeBytes,
    State.setLanes, State.setH, State.setSbox]
@[simp] theorem effect_legacy0 : (effect i s).legacy0 = s.legacy0 := by
  cases i <;> simp only [effect, State.streamFinal, State.streamInit, State.streamUpdate, State.writeBytes,
    State.setLanes, State.setH, State.setSbox]
@[simp] theorem effect_legacy1 : (effect i s).legacy1 = s.legacy1 := by
  cases i <;> simp only [effect, State.streamFinal, State.streamInit, State.streamUpdate, State.writeBytes,
    State.setLanes, State.setH, State.setSbox]
@[simp] theorem effect_latch : (effect i s).latch = s.latch := by
  cases i <;> simp only [effect, State.streamFinal, State.streamInit, State.streamUpdate, State.writeBytes,
    State.setLanes, State.setH, State.setSbox]
@[simp] theorem effect_platform : (effect i s).platform = s.platform := by
  cases i <;> simp only [effect, State.streamFinal, State.streamInit, State.streamUpdate, State.writeBytes,
    State.setLanes, State.setH, State.setSbox]
@[simp] theorem effect_hostOps : (effect i s).hostOps = s.hostOps := by
  cases i <;> simp only [effect, State.streamFinal, State.streamInit, State.streamUpdate, State.writeBytes,
    State.setLanes, State.setH, State.setSbox]
@[simp] theorem effect_turns : (effect i s).turns = s.turns := by
  cases i <;> simp only [effect, State.streamFinal, State.streamInit, State.streamUpdate, State.writeBytes,
    State.setLanes, State.setH, State.setSbox]
@[simp] theorem effect_hostReads : (effect i s).hostReads = s.hostReads := by
  cases i <;> simp only [effect, State.streamFinal, State.streamInit, State.streamUpdate, State.writeBytes,
    State.setLanes, State.setH, State.setSbox]
@[simp] theorem effect_cleaned : (effect i s).cleaned = s.cleaned := by
  cases i <;> simp only [effect, State.streamFinal, State.streamInit, State.streamUpdate, State.writeBytes,
    State.setLanes, State.setH, State.setSbox]
@[simp] theorem effect_stale : (effect i s).stale = s.stale := by
  cases i <;> simp only [effect, State.streamFinal, State.streamInit, State.streamUpdate, State.writeBytes,
    State.setLanes, State.setH, State.setSbox]
@[simp] theorem effect_draws : (effect i s).draws = s.draws := by
  cases i <;> simp only [effect, State.streamFinal, State.streamInit, State.streamUpdate, State.writeBytes,
    State.setLanes, State.setH, State.setSbox]
end effect

/-- A command whose operands are admitted keeps the canonical form of memory. -/
theorem effect_wf {i : Instr} {s : State} (hw : s.mem.wf = true) (ha : s.Admits i) : (effect i s).mem.wf = true := by
  have hf := range_fits_of_not_stuck ha.1
  cases i <;> simp only [effect, streamInit_mem, streamUpdate_mem, streamFinal_mem, setLanes_mem, setH_mem,
    setSbox_mem, writeBytes_mem, hw]
  · apply Memory.wf_writeBytes _ _ _ hw
    simpa [footprint, Operand.output, Range.ofAddr] using hf
  · apply Memory.wf_writeBytes _ _ _ hw
    simpa [Operand.output, Range.ofAddr] using hf (.output s.latch.operands.dstAddr 32) (by simp [footprint]) (by simp [Operand.output, Range.ofAddr])
  · apply Memory.wf_writeBytes _ _ _ hw
    simpa [Operand.output, Range.ofAddr] using hf (.output s.latch.operands.dstAddr 32) (by simp [footprint]) (by simp [Operand.output, Range.ofAddr])
  · rcases Nat.eq_zero_or_pos s.latch.operands.dstLen.toNat with h | h
    · rw [h]; exact hw
    · apply Memory.wf_writeBytes _ _ _ hw
      simpa [Operand.output, Range.ofAddr] using hf (.output s.latch.operands.dstAddr s.latch.operands.dstLen.toNat) (by simp [footprint]) h

end Sys2Proof.Machine
end

