-- ==== Sys2Proof/Laws/Keccak.lean ====
section
/-! SUPPORT. The Keccak steps lane by lane, and the byte view of the lane file. -/

namespace Sys2Proof.Machine

/-- A lane after χ (40_keccak.md R104). -/
theorem entry_chi (a : Lanes) {x y : Nat} (hx : x < 5) (hy : y < 5) :
    entry (chi a) (5 * y + x) =
      entry a (5 * y + x) ^^^ (~~~ entry a (5 * y + (x + 1) % 5) &&& entry a (5 * y + (x + 2) % 5)) := by
  simp only [chi]
  rw [entry_tabulate _ (by omega)]
  simp only [show (5 * y + x) / 5 = y by omega, show (5 * y + x) % 5 = x by omega]

/-- A lane after ι (40_keccak.md R105). -/
theorem entry_iota (a : Lanes) (rc : Word) {i : Nat} (hi : i < 25) :
    entry (iota a rc) i = if i = 0 then entry a 0 ^^^ rc else entry a i := entry_set _ _ _ hi

/-- A lane after ρ and π (40_keccak.md R103). -/
theorem entry_rhoPi (a : Lanes) (i : Nat) (h : i < 25) : entry (rhoPi a) i =
    rotl64 (entry a (rhoPiTable.getD i (0, 0)).1) (rhoPiTable.getD i (0, 0)).2 := by
  interval_cases i <;> rfl

/-- The permutation, step by step (40_keccak.md R100). -/
theorem keccakF_eq (a : Lanes) :
    keccakF a = (List.range 24).foldl (fun a r => iota (chi (rhoPi (theta a))) (roundConstant r)) a := rfl

/-- A rotation loses nothing. -/
theorem rotl64_injective {a b : Word} {n : Nat} (h : rotl64 a n = rotl64 b n) : a = b := by
  apply BitVec.eq_of_getLsbD_eq
  intro i hi
  have := congrArg (fun w => w.getLsbD ((i + n) % 64)) h
  simp only [rotl64, BitVec.getLsbD_rotateLeft] at this
  have lt : (i+n) % 64 < 64 := Nat.mod_lt _ (by omega)
  by_cases hc : (i+n) % 64 < n % 64
  · simp only [hc, decide_true] at this
    have e : 64 - n % 64 + (i+n)%64 = i := by omega
    rwa [e] at this
  · simp only [hc, decide_false, lt] at this
    have e : (i+n)%64 - n % 64 = i := by omega
    simpa [e, lt] using this

/-! ### The byte view (10_state.md R22, 41_sponge.md R121) -/

/-- State bytes after `XorStateByte(k, v)`. -/
theorem stateByte_xorStateByte (a : Lanes) (k : Nat) (v : Byte) (hk : k < 200) (j) (hj : j < 200) :
    stateByte (xorStateByte a k v) j = if j = k then stateByte a k ^^^ v else stateByte a j := by
  unfold stateByte xorStateByte
  rw [entry_set _ _ _ (by omega)]
  by_cases h : j = k
  · subst h
    simp only [if_true]
    apply BitVec.eq_of_getLsbD_eq; intro b hb
    have : 8 * (j%8) + b < 64 := by omega
    rw [BitVec.getLsbD_xor]; simp only [getLsbD_byteOf, hb, this, BitVec.getLsbD_xor, BitVec.getLsbD_shiftLeft, BitVec.getLsbD_setWidth, decide_true, Bool.true_and]
    simp; intro; omega
  · rw [if_neg h]
    by_cases h2 : j / 8 = k / 8
    · rw [if_pos h2, h2]
      apply BitVec.eq_of_getLsbD_eq; intro b hb
      have : 8 * (j%8) + b < 64 := by omega
      simp only [getLsbD_byteOf, hb, this, BitVec.getLsbD_xor, BitVec.getLsbD_shiftLeft, BitVec.getLsbD_setWidth, decide_true, Bool.true_and]
      have : j % 8 ≠ k % 8 := by omega
      rcases Nat.lt_or_ge (8*(j%8)+b) (8*(k%8)) with h3 | h3
      · simp [h3]
      · have : v.getLsbD (8*(j%8)+b - 8*(k%8)) = false := BitVec.getLsbD_of_ge _ _ (by omega)
        simp [this]
    · rw [if_neg h2]

/-- State bytes of a lane file built from bytes. -/
theorem stateByte_lanesOfBytes (f : Nat → Byte) (k) (h : k < 200) : stateByte (lanesOfBytes f) k = f k := by
  unfold stateByte lanesOfBytes
  rw [entry_tabulate _ (by omega), byteOf_le64 _ (by omega)]
  congr 1; omega

end Sys2Proof.Machine
end

