-- ==== Sys2Proof/Laws/PerInstr.lean ====
section
/-! SUPPORT. Statements about every command as syntax, one lemma per constructor. -/

namespace Sys2Proof.Laws.EncodesWellFormed

/-- The command's match word is no illegal encoding (30_encoding.md R83). -/
def Statement (i : Instr) : Prop := wordWellFormed (encode i) = true

theorem qvInit : Statement .qvInit := by unfold Statement; decide
theorem qvUpdate : Statement .qvUpdate := by unfold Statement; decide
theorem qvFinal : Statement .qvFinal := by unfold Statement; decide
theorem qvHash : Statement .qvHash := by unfold Statement; decide
theorem vortexHash : Statement .vortexHash := by unfold Statement; decide
theorem keccakF : Statement .keccakF := by unfold Statement; decide
theorem spongeInit : Statement .spongeInit := by unfold Statement; decide
theorem spongeAbsorb : Statement .spongeAbsorb := by unfold Statement; decide
theorem spongeFinal : Statement .spongeFinal := by unfold Statement; decide
theorem spongeSqueeze : Statement .spongeSqueeze := by unfold Statement; decide
theorem lanesLoad : Statement .lanesLoad := by unfold Statement; decide
theorem qvCompress : Statement .qvCompress := by unfold Statement; decide
theorem sboxLoad : Statement .sboxLoad := by unfold Statement; decide
theorem hstateLoad : Statement .hstateLoad := by unfold Statement; decide

end Sys2Proof.Laws.EncodesWellFormed
end

