-- ==== Sys2Proof/Laws/Ranges.lean ====
section
/-! SUPPORT. Ranges of bytes: which bytes the range operations of Machine/Ops.lean keep. -/

namespace Sys2Proof.Machine

theorem contains_iff (r : Range) (c : Nat) : r.contains c = true ↔ r.Has c := by
  simp [Range.contains, Range.Has]

@[simp] theorem inSome_nil (c : Nat) : ¬ InSome [] c := fun ⟨_, h, _⟩ => by cases h

@[simp] theorem inSome_cons (r : Range) (rs : List Range) (c : Nat) :
    InSome (r :: rs) c ↔ r.Has c ∨ InSome rs c := by
  simp [InSome]

@[simp] theorem inSome_append (rs qs : List Range) (c : Nat) :
    InSome (rs ++ qs) c ↔ InSome rs c ∨ InSome qs c := by
  simp [InSome, or_and_right, exists_or]

theorem any_contains_iff (rs : List Range) (c : Nat) :
    rs.any (fun r => r.contains c) = true ↔ InSome rs c := by
  simp [InSome, contains_iff]

/-- Dropping the empty ranges drops no byte. -/
theorem inSome_filter_nonempty (rs : List Range) (c : Nat) :
    InSome (rs.filter fun q => decide (0 < q.len)) c ↔ InSome rs c := by
  refine ⟨fun ⟨r, hr, h⟩ => ⟨r, (List.mem_filter.1 hr).1, h⟩, fun ⟨r, hr, h⟩ => ⟨r, List.mem_filter.2 ⟨hr, ?_⟩, h⟩⟩
  simp only [Range.Has] at h
  simp only [decide_eq_true_eq]
  omega

/-- `r.minus q` is the bytes of `r` that are not in `q`. -/
theorem inSome_minus (r q : Range) (c : Nat) : InSome (r.minus q) c ↔ r.Has c ∧ ¬ q.Has c := by
  simp only [Range.minus, inSome_filter_nonempty, inSome_cons, inSome_nil, or_false, Range.Has]
  omega

@[simp] theorem minusAll_cons (r : Range) (rs : List Range) (q : Range) :
    minusAll (r :: rs) q = r.minus q ++ minusAll rs q := by
  simp [minusAll]

theorem inSome_minusAll (q : Range) (c : Nat) : ∀ rs, InSome (minusAll rs q) c ↔ InSome rs c ∧ ¬ q.Has c
  | [] => by simp [minusAll]
  | r :: rs => by
    rw [minusAll_cons, inSome_append, inSome_minus, inSome_minusAll q c rs, inSome_cons]
    tauto

theorem inSome_foldl_minusAll (c : Nat) : ∀ (cs rs : List Range),
    InSome (cs.foldl minusAll rs) c ↔ InSome rs c ∧ ¬ InSome cs c
  | [], rs => by simp
  | q :: cs, rs => by
    rw [List.foldl_cons, inSome_foldl_minusAll c cs, inSome_minusAll, inSome_cons]
    tauto

/-- `r.coveredBy cs` says that every byte of `r` lies in some range of `cs`. -/
theorem coveredBy_iff (r : Range) (cs : List Range) :
    r.coveredBy cs = true ↔ ∀ c, r.Has c → InSome cs c := by
  simp only [Range.coveredBy, List.all_eq_true, beq_iff_eq]
  constructor
  · intro h c hr
    by_contra hc
    obtain ⟨q, hq, hqc⟩ := (inSome_foldl_minusAll c cs [r]).2 ⟨by simpa using hr, hc⟩
    have := h q hq
    simp only [Range.Has] at hqc
    omega
  · intro h q hq
    by_contra hl
    have hb : q.Has q.base := ⟨Nat.le_refl _, by omega⟩
    obtain ⟨hr, hc⟩ := (inSome_foldl_minusAll q.base cs [r]).1 ⟨q, hq, hb⟩
    exact hc (h _ (by simpa using hr))

end Sys2Proof.Machine
end

