-- ==== Sys2Proof/Laws/RegBlock.lean ====
section
/-! SUPPORT. What the register block reads as. -/

namespace Sys2Proof.Machine

/-- The bits of `STATUS` (10_state.md R36). -/
theorem status_word_bits (t : Status) : t.word.getLsbD 0 = t.busy ∧ t.word.getLsbD 1 = t.isDone ∧
    t.word.getLsbD 2 = t.overrun ∧ ∀ j, 3 ≤ j → t.word.getLsbD j = false := by
  obtain ⟨a, b, c⟩ := t
  refine ⟨?_, ?_, ?_, ?_⟩
  · revert a b c; decide
  · revert a b c; decide
  · revert a b c; decide
  · intro j hj
    rcases Nat.lt_or_ge j 32 with h | h
    · interval_cases j <;> revert a b c <;> decide
    · exact BitVec.getLsbD_of_ge _ _ h

/-- The bytes of a window register. -/
theorem extractLsb'_le32 (f : Nat → Byte) {b : Nat} (h : b < 4) : (le32 f).extractLsb' (8 * b) 8 = f b := by
  apply BitVec.eq_of_getLsbD_eq
  intro j hj
  simp only [BitVec.getLsbD_extractLsb', le32, BitVec.getLsbD_append]
  interval_cases b <;> interval_cases j <;> rfl

/-! ### The windows (10_state.md R43 to R46) -/

theorem engineReg_lane (s : State) (j : Nat) (h : j ≤ 49) :
    s.engineReg (0x100 + 4 * j) = some (laneReg s.sponge.lanes j) := by
  unfold State.engineReg
  rw [show (0x100 + 4 * j - 0x100) / 4 = j by omega]
  split_ifs <;> first | omega | rfl

theorem engineReg_hstate (s : State) (j : Nat) (h : j ≤ 15) :
    s.engineReg (0x200 + 4 * j) = some (hstateReg s.ctx.h j) := by
  unfold State.engineReg
  rw [show (0x200 + 4 * j - 0x200) / 4 = j by omega]
  split_ifs <;> first | omega | rfl

theorem engineReg_sbox (s : State) (j : Nat) (h : j < 64) :
    s.engineReg (0x300 + 4 * j) = some (sboxReg s.ctx.sbox j) := by
  unfold State.engineReg
  rw [show (0x300 + 4 * j - 0x300) / 4 = j by omega]
  split_ifs <;> first | omega | rfl

theorem engineReg_buf (s : State) (j : Nat) (h : j < 16) :
    s.engineReg (0x400 + 4 * j) = some (bufReg s.ctx.buf j) := by
  unfold State.engineReg
  rw [show (0x400 + 4 * j - 0x400) / 4 = j by omega]
  split_ifs <;> first | omega | rfl

/-- Below the control registers nothing shows engine state. -/
theorem engineReg_below (s : State) {off : Nat} (h : off < 0x60) : s.engineReg off = none := by
  unfold State.engineReg
  split_ifs <;> first | rfl | omega

theorem readReg_of_plain {s : State} {off : Nat} (h : s.engineReg off = none) :
    s.readReg off = some (s.plainReg off) := by
  simp [State.readReg, h]

theorem readReg_of_engine {s : State} {off : Nat} {v : Word32} (hb : s.status.busy = false)
    (h : s.engineReg off = some v) : s.readReg off = some v := by
  simp [State.readReg, h, hb]

end Sys2Proof.Machine
end

