-- ==== Sys2Proof/Laws/Step.lean ====
section
/-! SUPPORT. What a step can be, said once. -/

namespace Sys2Proof.Machine

/-- A step that goes on is a reset, an engine move, a host move, or a turn with nothing to do. -/
theorem step_cases {s t : State} (h : step s = .next t) : ∃ ts,
    (s.turns = .reset :: ts ∧ t = applyReset { s with turns := ts }) ∨
    (s.status.busy = true ∧ engineMove { s with turns := ts } = .next t) ∨
    (∃ op rest, s.hostOps = op :: rest ∧ hostMove { s with turns := ts } op rest = .next t) ∨
    t = { s with turns := ts } := by
  have host : ∀ ts, hostTurn { s with turns := ts } = .next t →
      (∃ op rest, s.hostOps = op :: rest ∧ hostMove { s with turns := ts } op rest = .next t) ∨
      t = { s with turns := ts } := by
    intro ts h
    unfold hostTurn at h
    split at h
    · exact .inr (by injection h with h; exact h.symm)
    · rename_i op rest ho
      exact .inl ⟨op, rest, ho, h⟩
  unfold step takeTurn at h
  split at h
  · refine ⟨s.turns, .inr ?_⟩
    unfold defaultTurn at h
    split at h
    · rename_i hb
      split at h
      · split at h
        · cases h
        · exact .inr (host s.turns h)
      · exact .inl ⟨hb, h⟩
    · exact .inr (host s.turns h)
  · rename_i ts _
    refine ⟨ts, .inr ?_⟩
    unfold engineTurn at h
    split at h
    · rename_i hb
      exact .inl ⟨hb, h⟩
    · exact .inr (.inr (by injection h with h; exact h.symm))
  · rename_i ts _
    exact ⟨ts, .inr (.inr (host ts h))⟩
  · rename_i ts ht
    exact ⟨ts, .inl ⟨ht, by injection h with h; exact h.symm⟩⟩

/-- What an engine move that completes leaves: a completed command, and the output ranges noted. -/
theorem engineMove_cases {s t : State} (h : engineMove s = .next t) : ∃ u, t = s.noteOutputs u ∧
    (((∃ e, decodeWord s.latch.op = .error e) ∧ u = s.complete .eIllegal) ∨
      ∃ i, decodeWord s.latch.op = .ok i ∧ exec i s = .next u) := by
  unfold engineMove at h
  split at h
  · rename_i u hu
    refine ⟨u, by injection h with h; exact h.symm, ?_⟩
    unfold executeLatched at hu
    split at hu
    · rename_i e he
      exact .inl ⟨⟨e, he⟩, by injection hu with hu; exact hu.symm⟩
    · rename_i i hi
      exact .inr ⟨i, hi, hu⟩
  · cases h
  · cases h

/-- An abandoned command changes host memory and the draw counter only (70_reset_and_hazards.md R231). -/
theorem abandonCommand_eq (s : State) : ∃ m d, s.abandonCommand = { s with mem := m, draws := d } := by
  have fold : ∀ (l : List Range) (s : State),
      ∃ m d, l.foldl State.scrambleRange s = { s with mem := m, draws := d } := by
    intro l
    induction l with
    | nil => exact fun s => ⟨_, _, rfl⟩
    | cons r l ih =>
      intro s
      obtain ⟨m, d, h⟩ := ih (s.scrambleRange r)
      exact ⟨m, d, h⟩
  unfold State.abandonCommand
  split
  · exact fold _ _
  · exact ⟨_, _, rfl⟩

/-- Drawing the bytes of a range keeps the canonical form of memory. -/
theorem wf_scrambleRange {s : State} (r : Range) (h : s.mem.wf = true) : (s.scrambleRange r).mem.wf = true := by
  simp only [State.scrambleRange]
  rcases Nat.lt_or_ge r.base (2 ^ 64) with hb | hb
  · apply Memory.wf_writeBytes _ _ _ h
    simp [freeBytes]
    omega
  · rw [show min r.len (2 ^ 64 - r.base) = 0 by omega]
    exact h

end Sys2Proof.Machine
end

