-- ==== Sys2Proof/Tests/Slice0.lean ====
section
/-! SUPPORT. Tests: decoding, the well-formedness checks, one small step per command with the expected values of
spec/95_test_vectors.md, and for every obligation with hypotheses a concrete witness that meets them. -/

set_option Elab.async false

namespace Sys2Proof.Tests

open Sys2Proof Sys2Proof.Machine

/-! ### Helpers -/

/-- Operands with valid addresses and short lengths. -/
def ops : Operands :=
  { srcAddr := 0x1000, srcLen := 3, keyAddr := 0x2000, keyLen := 1, dstAddr := 0x3000, dstLen := 2 }

/-- The zero operands. -/
def nullOps : Operands := { srcAddr := 0, srcLen := 0, keyAddr := 0, keyLen := 0, dstAddr := 0, dstLen := 0 }

/-- `BUSY = 1`. -/
def busy : Status := { busy := true, isDone := false, overrun := false }

/-- A machine whose engine runs a word. -/
def running (w : Word32) (o : Operands) : State :=
  { State.reset with latch := { op := w, operands := o }, status := busy }

/-- A machine whose engine runs a command, on "abc" at 0x1000. -/
def at1000 (i : Instr) (o : Operands) : State :=
  { running (encode i) o with mem := [(0x1000, 0x61), (0x1001, 0x62), (0x1002, 0x63)] }

/-- The sponge of a machine in the squeeze phase with `r` bytes of the rate emitted. -/
def squeezing (r : Fin 169) : Sponge := { Sponge.reset with rateUsed := r, phase := .squeeze }

/-- A property of the next state; false of a stop. -/
def next? (r : StepResult) (f : State → Bool) : Bool :=
  match r with
  | .next t => f t
  | .fault _ => false
  | .refused _ => false

/-- The step stops with this fault. -/
def faults (r : StepResult) (f : Fault) : Bool :=
  match r with
  | .next _ => false
  | .fault g => g == f
  | .refused _ => false

/-- The step stops with this refusal. -/
def refuses (r : StepResult) (f : Refusal) : Bool :=
  match r with
  | .next _ => false
  | .fault _ => false
  | .refused g => g == f

/-- A host access is the machine's next transition. -/
def hostNext (s : State) (op : HostOp) : State := { s with turns := [.host], hostOps := [op] }

/-! ### Decoding (30_encoding.md R80, R82, R83) -/

theorem test_decode_stream : decodeWord 0b00000000000000000000000000000001 = .ok .qvInit ∧
    decodeWord 0b00000000000000000000000000000010 = .ok .qvUpdate ∧
    decodeWord 0b00000000000000000000000000000011 = .ok .qvFinal ∧
    decodeWord 0b00000000000000000000000000000100 = .ok .qvHash ∧
    decodeWord 0b00000000000000000000000000000101 = .ok .vortexHash := by decide

theorem test_decode_keccak_and_sponge : decodeWord 0b00000000000000000000000000010000 = .ok .keccakF ∧
    decodeWord 0b00000000000000000000000000010001 = .ok .spongeInit ∧
    decodeWord 0b00000000000000000000000000010010 = .ok .spongeAbsorb ∧
    decodeWord 0b00000000000000000000000000010011 = .ok .spongeFinal ∧
    decodeWord 0b00000000000000000000000000010100 = .ok .spongeSqueeze ∧
    decodeWord 0b00000000000000000000000000010101 = .ok .lanesLoad := by decide

theorem test_decode_compress : decodeWord 0b00000000000000000000000000100000 = .ok .qvCompress ∧
    decodeWord 0b00000000000000000000000000100001 = .ok .sboxLoad ∧
    decodeWord 0b00000000000000000000000000100010 = .ok .hstateLoad := by decide

/-- The first byte of a word is its bits 7:0 (20_memory.md R64). -/
theorem test_decode_bytes : decodeBytes [0x05, 0x00, 0x00, 0x00] = .ok .vortexHash ∧
    decodeBytes [0x00, 0x00, 0x00, 0x05] = .error .mbzNonzero ∧ decodeBytes [0x05] = .error .notOneWord ∧
    decodeTableWord 32 0x15 = some .lanesLoad ∧ decodeTableWord 32 0x16 = none := by decide

/-! ### Well-formedness: the ill-formed term of each check is refused -/

theorem test_mbz_check_refuses : mbzClear 0x00000101 = false ∧ mbzClear 0x80000001 = false ∧
    wordWellFormed 0x00000101 = false ∧ decodeWord 0x00000101 = .error .mbzNonzero := by decide

theorem test_opcode_check_refuses : opcodeListed 0x00000000 = false ∧ opcodeListed 0x00000006 = false ∧
    wordWellFormed 0x00000023 = false ∧ decodeWord 0x000000FF = .error .opcodeUnlisted := by decide

theorem test_every_command_is_wellFormed : Instr.wellFormed .qvInit = true ∧ wordWellFormed (encode .hstateLoad) = true :=
  by decide

/-! ### The step and the register block -/

/-- W2 of 95_test_vectors.md. -/
theorem test_version : Pseudo.versionBytes version0 version1 = [0x31, 0x2E, 0x30, 0x2E, 0x30] ∧
    State.reset.readReg 0x050 = some 0x2E302E31 ∧ State.reset.readReg 0x054 = some 0x00000030 := by decide

/-- 60_exceptions.md R201. -/
theorem test_status_value : Pseudo.statusValue ResultCode.ePhase.bits = -4 ∧
    Pseudo.statusValue ResultCode.eNull.bits = -1 := by decide

/-- 30_encoding.md R85: `SET` writes `_LO`, then `_HI`. -/
theorem test_set64 : Pseudo.set64 0x010 0x1122334455667788 =
    [.regWrite .w32 0x010 0x55667788, .regWrite .w32 0x014 0x11223344] := by decide

theorem test_cmd_write_is_accepted : next? (step (hostNext State.reset (Pseudo.issue .keccakF)))
    (fun t => t.status == busy && t.latch.op == 0x10 && t.result == 0) = true := by decide +kernel

theorem test_cmd_write_while_busy_sets_overrun :
    next? (step (hostNext (running 0x10 ops) (Pseudo.issue .qvInit)))
      (fun t => t.status.word == 5 && t.latch.op == 0x10) = true := by decide +kernel

theorem test_illegal_word : next? (step { running 0 ops with turns := [.engine] })
    (fun t => t.result == 0xFFFFFFFD && t.status.word == 2) = true := by decide +kernel

theorem test_reset_is_idle : next? (step State.reset)
    (fun t => t.status.word == 0 && t.result == 0 && t.mem == [] && t.hostReads == []) = true := by decide +kernel

theorem test_stuck_engine : faults (step (at1000 .qvUpdate { ops with srcAddr := 0xFFFFFFFFFFFFFFFE }))
    (.engineStuck .rangeWraps) = true := by decide +kernel

theorem test_race_is_refused : refuses (step (hostNext (at1000 .qvUpdate ops) (.memWrite 0x1002 0))) .operandRace = true ∧
    next? (step (hostNext (at1000 .qvUpdate ops) (.memWrite 0x1003 7))) (fun t => t.mem.read 0x1003 == 7) = true := by
  decide +kernel

theorem test_fetched_word_runs :
    next? (step (State.reset.withFetchWord 32 0x22)) (fun t => t.result == 0xFFFFFFFF) = true := by decide +kernel

/-! ### Memory -/

theorem test_memory_write_is_canonical :
    Memory.write [(2, 5)] 1 9 = [(1, 9), (2, 5)] ∧ Memory.write [(2, 5)] 2 0 = [] ∧
    Memory.wf [(2, 5), (1, 9)] = false ∧ Memory.wf [(1, 0)] = false := by decide

/-! ### Keccak and the sponge (95_test_vectors.md sections 1 and 2) -/

/-- K6 of 95_test_vectors.md, on zero memory but for three bytes. -/
theorem test_lanesLoad : next? (exec .lanesLoad (at1000 .lanesLoad ops))
    (fun t => entry t.sponge.lanes 0 == 0x636261 && entry t.sponge.lanes 24 == 0) = true := by decide +kernel

theorem test_spongeInit : next? (exec .spongeInit { running 0x11 ops with sponge := squeezing 168 })
    (fun t => t.sponge.ctrlWord == 0) = true := by decide +kernel

/-- S2 of 95_test_vectors.md. -/
theorem test_spongeAbsorb : next? (exec .spongeAbsorb (at1000 .spongeAbsorb ops))
    (fun t => entry t.sponge.lanes 0 == 0x0000000000636261 && t.sponge.ctrlWord == 3) = true := by decide +kernel

/-- S5 of 95_test_vectors.md: null is checked before the phase. -/
theorem test_spongeAbsorb_errors :
    next? (exec .spongeAbsorb { running 0x12 { nullOps with srcLen := 5 } with sponge := squeezing 0 })
      (fun t => t.result == 0xFFFFFFFF) = true ∧
    next? (exec .spongeAbsorb { running 0x12 nullOps with sponge := squeezing 0 })
      (fun t => t.result == 0xFFFFFFFC) = true := by decide +kernel

/-- S4 of 95_test_vectors.md: a squeeze of nothing at an exhausted rate does not permute. -/
theorem test_spongeSqueeze :
    next? (exec .spongeSqueeze { running 0x14 nullOps with sponge := squeezing 168 })
      (fun t => t.sponge.ctrlWord == 0x1A8 && t.result == 0) = true ∧
    next? (exec .spongeSqueeze { running 0x14 ops with
        sponge := { squeezing 2 with lanes := tabulate 25 fun _ => 0x7D828FE8A42B9C7F } })
      (fun t => t.mem == [(0x3000, 0x2B), (0x3001, 0xA4)] && t.sponge.ctrlWord == 0x104) = true := by decide +kernel

/-! ### The compressor (95_test_vectors.md sections 0 and 4) -/

/-- W3 of 95_test_vectors.md. -/
theorem test_rotation_amount : rotAmount 56 0x0300000000000000 = 3 ∧ rotAmount 56 0xC000000000000000 = 0 ∧
    rotAmount 56 0xFF00000000000000 = 63 ∧ rotAmount 58 0xC000000000000000 = 48 := by decide +kernel

theorem test_qvCompress_null : next? (exec .qvCompress (running 0x20 nullOps))
    (fun t => t.result == 0xFFFFFFFF) = true := by decide +kernel

theorem test_sboxLoad : next? (exec .sboxLoad (at1000 .sboxLoad ops))
    (fun t => sboxReg t.ctx.sbox 0 == 0x00636261) = true := by decide +kernel

theorem test_hstateLoad : next? (exec .hstateLoad (at1000 .hstateLoad { ops with srcAddr := 0x0FFB }))
    (fun t => entry t.ctx.h 0 == 0x6362610000000000 && hstateReg t.ctx.h 1 == 0x63626100) = true := by decide +kernel

/-! ### The stream (95_test_vectors.md sections 0, 3 and 6) -/

/-- W1 of 95_test_vectors.md, and that the sponge is left clear. -/
theorem test_qvInit : next? (exec .qvInit (running 0x01 nullOps))
    (fun t => hstateReg t.ctx.h 0 == 0xF3BCC908 && hstateReg t.ctx.h 1 == 0x6A09E667 && t.sponge.ctrlWord == 0) = true :=
  by decide +kernel

theorem test_qvUpdate : next? (exec .qvUpdate (at1000 .qvUpdate ops))
    (fun t => bufReg t.ctx.buf 0 == 0x00636261 && t.ctx.bufLen == 3 && t.ctx.totalLen == 3) = true := by decide +kernel

/-- W4 of 95_test_vectors.md. -/
theorem test_qvUpdate_empty : next? (exec .qvUpdate (running 0x02 nullOps))
    (fun t => t.result == 0 && t.ctx.bufLen == 0 && t.ctx.totalLen == 0 && entry t.ctx.h 0 == 0) = true := by
  decide +kernel

/-- W6 of 95_test_vectors.md, the final block after 15 bytes. -/
theorem test_final_block :
    let b := withLength (padBlock (tabulate 64 fun _ => 0x41) 15) 15
    [entry b 14, entry b 15, entry b 16, entry b 55, entry b 56, entry b 57] = [0x41, 0x80, 0, 0, 0x78, 0] := by
  decide +kernel

/-- 43_stream.md R176: the digest of the zero context is zeros. -/
theorem test_qvFinal : next? (exec .qvFinal { running 0x03 ops with mem := [(0x2FFF, 1), (0x3000, 2), (0x301F, 3), (0x3020, 4)] })
    (fun t => t.mem == [(0x2FFF, 1), (0x3020, 4)] && t.result == 0) = true := by decide +kernel

theorem test_qvHash_null : next? (exec .qvHash (running 0x04 { nullOps with srcAddr := 1, keyAddr := 1 }))
    (fun t => t.result == 0xFFFFFFFF) = true := by decide +kernel

theorem test_vortexHash_null : next? (exec .vortexHash (running 0x05 { nullOps with dstAddr := 1, keyLen := 1 }))
    (fun t => t.result == 0xFFFFFFFF) = true := by decide +kernel

/-! ### Witnesses: for every obligation with hypotheses, a concrete case that meets them all -/

/-- The highest address whose byte a 32-byte range may end with. -/
def topOps : Operands := { ops with srcAddr := 0xFFFFFFFFFFFFFFFD, dstAddr := 0xFFFFFFFFFFFFFFE0 }

/-- A machine on a platform with one region. -/
def onRegion (s : State) (k : RegionKind) (r : Range) : State :=
  { s with platform := { s.platform with regions := [{ kind := k, span := r }] } }

/-- The machine on a platform that is not coherent. -/
def incoherent (s : State) : State := { s with platform := { s.platform with coherent := false } }

/-- The checks of a command pass and its operand ranges are admitted, as a Bool. -/
def clear (i : Instr) (s : State) : Bool :=
  !nullFault i s.latch.operands && !phaseFault i s.sponge.phase &&
    s.platform.stuckOn (footprint i s.latch.operands) == none &&
    !(footprint i s.latch.operands).any s.platform.hasDevice

theorem clear_spec {i : Instr} {s : State} (h : clear i s = true) : s.Accepts i ∧ s.Admits i := by
  simp only [clear, Bool.and_eq_true, Bool.not_eq_true', beq_iff_eq] at h
  exact ⟨⟨h.1.1.1, h.1.1.2⟩, h.1.2, h.2⟩

/-- A command that is clear completes with `OK`. -/
theorem runs {i : Instr} {s : State} (h : clear i s = true) : exec i s = .next ((effect i s).complete .ok) :=
  exec_of_accepts (clear_spec h).1 (clear_spec h).2

/-- Both clauses, at the boundaries of the illegal ranges. -/
theorem witness_IllegalWordChangesNothing :
    (∀ w, (running w ops).latch.op = w) ∧
    ((0x00000100 : Word32).extractLsb' 8 24 ≠ 0 ∧ (0x80000001 : Word32).extractLsb' 8 24 ≠ 0) ∧
    ((0x000000FF : Word32).extractLsb' 0 8).toNat = 0xFF ∧
    ∀ op ∈ [0x00, 0x06, 0x0F, 0x16, 0x1F, 0x23, 0xFF],
      op = 0x00 ∨ (0x06 ≤ op ∧ op ≤ 0x0F) ∨ (0x16 ≤ op ∧ op ≤ 0x1F) ∨ (0x23 ≤ op ∧ op ≤ 0xFF) := by
  refine ⟨fun _ => rfl, ?_, ?_, ?_⟩ <;> decide

/-- An engine turn and the default, on a coherent and on another platform, with a next state, an illegal word, a fault
and a refusal. -/
theorem witness_StepRunsDecodedCommand :
    (({ at1000 .spongeInit ops with turns := [.engine] }).turns = .engine :: [] ∧ (at1000 .spongeInit ops).turns = []) ∧
    (at1000 .spongeInit ops).status.busy = true ∧ decodeWord (at1000 .spongeInit ops).latch.op = .ok .spongeInit ∧
    (∃ t, exec .spongeInit { at1000 .spongeInit ops with turns := [] } = .next t) ∧
    (at1000 .spongeInit ops).platform.coherent = true ∧
    (let s := incoherent (at1000 .qvFinal ops)
     s.platform.coherent = false ∧ s.turns = [] ∧ s.status.busy = true ∧ decodeWord s.latch.op = .ok .qvFinal ∧
     (∃ t, exec .qvFinal s = .next t) ∧ s.writeRanges = [⟨0x3000, 32⟩]) ∧
    ((running 0x00 ops).status.busy = true ∧ (running 0x00 ops).turns = [] ∧
     decodeWord (running 0x00 ops).latch.op = .error .opcodeUnlisted) ∧
    faults (exec .qvUpdate (at1000 .qvUpdate { ops with srcAddr := 0xFFFFFFFFFFFFFFFE })) (.engineStuck .rangeWraps) =
      true ∧
    refuses (exec .qvUpdate (onRegion (at1000 .qvUpdate ops) .device ⟨0x1002, 1⟩)) .deviceOperand = true :=
  ⟨⟨rfl, rfl⟩, rfl, rfl, ⟨_, rfl⟩, rfl, ⟨rfl, rfl, rfl, rfl, ⟨_, runs (by decide +kernel)⟩, rfl⟩,
    ⟨rfl, rfl, rfl⟩, by decide +kernel, by decide +kernel⟩

theorem witness_FetchedWordIsRunNext : State.reset.platform.coherent = true := rfl

/-- A stuck and an idle engine, with the host done and with a host store next, and each turn. -/
theorem witness_HostMovesWhenTheEngineDoesNot :
    (let s := at1000 .qvUpdate { ops with srcAddr := 0xFFFFFFFFFFFFFFFE }
     let s' := { s with hostOps := [.memWrite 0x5000 1] }
     s.turns = [] ∧ s.status.busy = true ∧ decodeWord s.latch.op = .ok .qvUpdate ∧
     exec .qvUpdate s = .fault (.engineStuck .rangeWraps) ∧ s.hostOps = [] ∧
     exec .qvUpdate s' = .fault (.engineStuck .rangeWraps) ∧ s'.hostOps = .memWrite 0x5000 1 :: [] ∧
     next? (step s') (fun t => t.mem.read 0x5000 == 1) = true) ∧
    (State.reset.turns = [] ∧ State.reset.status.busy = false ∧ State.reset.hostOps = [] ∧
     ({ State.reset with hostOps := [.memWrite 0x5000 1] }).hostOps = .memWrite 0x5000 1 :: []) ∧
    (({ State.reset with turns := [.host] }).turns = .host :: [] ∧
     ({ State.reset with turns := [.engine] }).turns = .engine :: []) := by
  refine ⟨⟨rfl, rfl, rfl, rfl, rfl, rfl, rfl, by decide +kernel⟩, ⟨rfl, rfl, rfl, rfl⟩, rfl, rfl⟩

theorem witness_ResetClearsTheBlock : ({ at1000 .qvFinal ops with turns := [.reset] }).turns = .reset :: [] := rfl

/-- A byte just below and one just above the abandoned output. -/
theorem witness_ResetWritesOnlyAbandonedOutputs :
    ({ at1000 .qvFinal ops with turns := [.reset] }).turns = .reset :: [] ∧
    ∀ c ∈ [0x2FFF, 0x3020], ∀ r ∈ (at1000 .qvFinal ops).writeRanges, c < r.base ∨ r.base + r.len ≤ c := by
  refine ⟨rfl, by decide +kernel⟩

theorem witness_StepKeepsInvariant : State.reset.Inv ∧ ∃ t, step State.reset = .next t :=
  ⟨⟨rfl, by decide, .inl rfl, fun _ => by decide⟩, ⟨_, rfl⟩⟩

/-- Each kind of condition is met and missed. -/
theorem witness_NullOperandRejects :
    nullFault .qvUpdate { nullOps with srcLen := 1 } = true ∧ nullFault .qvUpdate nullOps = false ∧
    nullFault .qvFinal nullOps = true ∧ nullFault .qvHash { nullOps with dstAddr := 1, keyLen := 1 } = true ∧
    ∃ t, exec .qvFinal (running 0x03 nullOps) = .next t ∧ t.result = 0xFFFFFFFF :=
  ⟨by decide, by decide, by decide, by decide, _, rfl, rfl⟩

theorem witness_WrongPhaseRejects :
    ∃ t, exec .spongeSqueeze (running 0x14 ops) = .next t ∧ t.result = 0xFFFFFFFC := ⟨_, rfl, rfl⟩

theorem witness_RejectedCommandChangesNothing :
    (∃ t, executeLatched (running 0x03 nullOps) = .next t ∧ t.result ≠ 0) ∧
    (∃ t, executeLatched (running 0x14 ops) = .next t ∧ t.result ≠ 0) ∧
    (∃ t, executeLatched (running 0x00 ops) = .next t ∧ t.result ≠ 0) :=
  ⟨⟨_, rfl, by decide⟩, ⟨_, rfl, by decide⟩, ⟨_, rfl, by decide⟩⟩

/-- Every command is accepted and admitted somewhere; the squeeze in the squeeze phase. -/
theorem witness_AcceptedCommandCompletes :
    (∀ i ∈ [Instr.qvInit, .qvUpdate, .qvFinal, .qvHash, .vortexHash, .keccakF, .spongeInit, .spongeAbsorb,
        .spongeFinal, .lanesLoad, .qvCompress, .sboxLoad, .hstateLoad],
      (at1000 i ops).Accepts i ∧ (at1000 i ops).Admits i) ∧
    ({ at1000 .spongeSqueeze ops with sponge := squeezing 168 }).Accepts .spongeSqueeze ∧
    ({ at1000 .spongeSqueeze ops with sponge := squeezing 168 }).Admits .spongeSqueeze := by
  refine ⟨fun i hi => clear_spec ?_, clear_spec (by decide +kernel)⟩
  revert i
  decide +kernel

/-- A range that ends one byte past the address space; one that ends with it and touches an absent byte, and one
that writes a byte the engine may only read. -/
theorem witness_UnadmittedRangeSticksTheEngine :
    (at1000 .qvUpdate ops).Accepts .qvUpdate ∧
    (∃ o ∈ footprint .qvUpdate { ops with srcAddr := 0xFFFFFFFFFFFFFFFE }, 0 < o.range.len ∧
      2 ^ 64 < o.range.base + o.range.len) ∧
    (∀ o ∈ footprint .qvUpdate topOps, 0 < o.range.len → o.range.base + o.range.len ≤ 2 ^ 64) ∧
    (∃ o ∈ footprint .qvUpdate topOps,
      ∃ g ∈ (onRegion (at1000 .qvUpdate topOps) .absent ⟨0xFFFFFFFFFFFFFFFF, 1⟩).platform.regions, ∃ c,
        g.kind.bars o.access = true ∧ g.span.base ≤ c ∧ c < g.span.base + g.span.len ∧ o.range.base ≤ c ∧
        c < o.range.base + o.range.len) ∧
    RegionKind.bars .engineReadOnly .write = true ∧ RegionKind.bars .engineReadOnly .read = false := by
  refine ⟨⟨rfl, rfl⟩, ⟨_, List.mem_singleton.2 rfl, by decide⟩, ?_,
    ⟨_, List.mem_singleton.2 rfl, _, List.mem_singleton.2 rfl, 0xFFFFFFFFFFFFFFFF, by decide⟩, rfl, rfl⟩
  intro o ho
  rw [List.mem_singleton.1 ho]
  decide

theorem witness_DeviceOperandIsRefused :
    let s := onRegion (at1000 .qvUpdate ops) .device ⟨0x1002, 1⟩
    s.Accepts .qvUpdate ∧ s.platform.stuckOn (footprint .qvUpdate s.latch.operands) = none ∧
    ∃ o ∈ footprint .qvUpdate s.latch.operands, ∃ g ∈ s.platform.regions, ∃ c, g.kind = .device ∧
      g.span.base ≤ c ∧ c < g.span.base + g.span.len ∧ o.range.base ≤ c ∧ c < o.range.base + o.range.len :=
  ⟨⟨rfl, rfl⟩, by decide +kernel,
    ⟨_, List.mem_singleton.2 rfl, _, List.mem_singleton.2 rfl, 0x1002, by decide⟩⟩

/-- A command that stores, and one that reads an empty range at address 0. -/
theorem witness_NullAddressIsNeverAccessed :
    (at1000 .qvFinal ops).mem.wf = true ∧ (∃ t, exec .qvFinal (at1000 .qvFinal ops) = .next t) ∧
    ∃ t, exec .qvUpdate (at1000 .qvUpdate nullOps) = .next t := by
  refine ⟨by decide, ⟨_, runs (by decide +kernel)⟩,
    ⟨_, runs (by decide +kernel)⟩⟩

theorem witness_CmdWriteIsAcceptedOrDropped :
    State.reset.status.busy = false ∧ (running 0x10 ops).status.busy = true := ⟨rfl, rfl⟩

/-- The first and the last operand or legacy register, each beside the next one. -/
theorem witness_OperandHalvesAreIndependent :
    (0x010 % 4 = 0 ∧ 0x010 ≤ 0x010 ∧ 0x010 ≤ 0x044 ∧ 0x014 ≠ 0x010) ∧
    (0x044 % 4 = 0 ∧ 0x010 ≤ 0x044 ∧ 0x044 ≤ 0x044 ∧ 0x040 ≠ 0x044) := by decide

/-- The offsets just outside the writable ones, and the ends of each reserved range. -/
theorem witness_ReservedAndReadOnlyOffsets :
    (∀ off ∈ [0x008, 0x00C, 0x048, 0x050, 0xFFC], off ≠ 0x000 ∧ off ≠ 0x004 ∧ (off < 0x010 ∨ 0x044 < off)) ∧
    (∀ off ∈ [0x00C, 0x048, 0x04C, 0x058, 0x05C, 0x070, 0x0FC, 0x1C8, 0x1FC, 0x240, 0x2FC, 0x440, 0xFFC],
      off % 4 = 0 ∧ (off = 0x00C ∨ off = 0x048 ∨ off = 0x04C ∨ off = 0x058 ∨ off = 0x05C ∨
        (0x070 ≤ off ∧ off ≤ 0x0FC) ∨ (0x1C8 ≤ off ∧ off ≤ 0x1FC) ∨ (0x240 ≤ off ∧ off ≤ 0x2FC) ∨
        (0x440 ≤ off ∧ off ≤ 0xFFC))) := by decide

theorem witness_LaneWindowShowsTheLaneFile : State.reset.status.busy = false ∧ 49 ≤ 49 ∧ 24 < 25 := by decide

theorem witness_ContextRegistersShowTheContext : State.reset.status.busy = false := rfl

/-- The ends of each window, and the last register below them. -/
theorem witness_WindowReadsWhileBusyAreDrawn :
    (∀ off : BitVec 12, let s := hostNext (running 0x10 ops) (.regRead .w32 off)
      s.status.busy = true ∧ s.turns = .host :: [] ∧ s.hostOps = .regRead .w32 off :: []) ∧
    (∀ off ∈ [0x060, 0x06C, 0x100, 0x1C4, 0x200, 0x23C, 0x300, 0x3FC, 0x400, 0x43C],
      (BitVec.ofNat 12 off).toNat = off ∧ off % 4 = 0 ∧
      ((0x060 ≤ off ∧ off ≤ 0x06C) ∨ (0x100 ≤ off ∧ off ≤ 0x1C4) ∨ (0x200 ≤ off ∧ off ≤ 0x23C) ∨
        (0x300 ≤ off ∧ off ≤ 0x3FC) ∨ (0x400 ≤ off ∧ off ≤ 0x43C))) ∧
    (0x05C : BitVec 12).toNat % 4 = 0 ∧ (0x05C : BitVec 12).toNat ≤ 0x05C :=
  ⟨fun _ => ⟨rfl, rfl, rfl⟩, by decide, by decide, by decide⟩

theorem witness_LatchedOperandsIsolateTheCommand :
    0x010 ≤ 0x044 ∧ 0x044 ≤ 0x044 ∧ ∃ t, exec .keccakF (running 0x10 ops) = .next t := ⟨by decide, by decide, _, rfl⟩

/-- A completing engine step, and a host step that is accepted. -/
theorem witness_OnlyCompletionChangesEngineState :
    (∃ t, step (running 0x00 ops) = .next t ∧ t.result ≠ (running 0x00 ops).result) ∧
    (∃ t, step (hostNext State.reset (.regWrite .w32 0x000 0x10)) = .next t ∧ t.latch ≠ State.reset.latch) ∧
    ∀ ts, (running 0x00 ops).turns ≠ .reset :: ts :=
  ⟨⟨_, rfl, by decide⟩, ⟨_, rfl, by decide⟩, fun _ => by simp [running, State.reset]⟩

/-- Each forbidden width, a misaligned access, a byte access at each end of the block and one just below it; and a
write, a read and a poll that are performed. -/
theorem witness_OnlyAlignedWordAccessesReachTheBlock :
    (∀ op, (hostNext State.reset op).turns = .host :: [] ∧ (hostNext State.reset op).hostOps = op :: []) ∧
    (AccessWidth.w8 ≠ .w32 ∧ AccessWidth.w16 ≠ .w32 ∧ AccessWidth.w64 ≠ .w32 ∧ (0x002 : BitVec 12).toNat % 4 ≠ 0) ∧
    (State.reset.platform.inBlock 0xFFFFFFFFFFFFF000 = true ∧ State.reset.platform.inBlock 0xFFFFFFFFFFFFFFFF = true ∧
      State.reset.platform.inBlock 0xFFFFFFFFFFFFEFFF = false) ∧
    ((0x010 : BitVec 12) ≠ 0x000 ∧ (0xFFC : BitVec 12).toNat % 4 = 0 ∧ State.reset.platform.coherent = true) ∧
    State.reset.readReg 0xFFC = some 0 := by
  refine ⟨fun _ => ⟨rfl, rfl⟩, by decide, by decide +kernel, by decide, by decide +kernel⟩

/-- The last byte of an input, of an output, and the byte just above; the same bytes with an idle engine, an illegal
word and a command that will be rejected. -/
theorem witness_RacingHostAccessIsRefused :
    let s := hostNext (at1000 .qvHash ops) (.memWrite 0x1002 0)
    s.turns = .host :: [] ∧ s.status.busy = true ∧ decodeWord s.latch.op = .ok .qvHash ∧ s.Accepts .qvHash ∧
    (s.platform.inBlock 0x3020 = false ∧ s.platform.hostMemoryAt 0x3020 = true) ∧
    (∃ o ∈ footprint .qvHash ops, o.range.Has 0x1002) ∧
    (∃ o ∈ footprint .qvHash ops, o.access = .write ∧ o.range.Has 0x301F) ∧
    (∀ o ∈ footprint .qvHash ops, ¬ o.range.Has 0x3020) ∧
    (∀ o ∈ footprint .qvHash ops, o.access = .write → ¬ o.range.Has 0x1002) ∧ s.platform.coherent = true ∧
    State.reset.status.busy = false ∧ (decodeWord (running 0x00 ops).latch.op).toOption = none ∧
    nullFault .qvFinal (at1000 .qvFinal nullOps).latch.operands = true :=
  ⟨rfl, rfl, rfl, ⟨rfl, rfl⟩, by decide +kernel,
    ⟨.input 0x1000 3, .tail _ (.head _), by decide, by decide⟩,
    ⟨.output 0x3000 32, .tail _ (.tail _ (.head _)), rfl, by decide, by decide⟩,
    by simp only [← contains_iff]; decide +kernel, by simp only [← contains_iff]; decide +kernel, rfl, rfl, rfl, rfl⟩

/-- A store to an input byte of no running command is performed: idle, illegal word, rejected command. -/
theorem test_store_is_performed : ∀ s ∈ [at1000 .qvFinal nullOps, running 0x00 ops, State.reset],
    next? (step (hostNext s (.memWrite 0x1002 7))) (fun t => t.mem.read 0x1002 == 7) = true := by decide +kernel

/-- A host access next on a platform that is not coherent, with the first two of three input bytes cleaned and the
first output byte stale. -/
def partlyCleaned (op : HostOp) : State :=
  { incoherent (hostNext State.reset op) with operands := ops, cleaned := [⟨0x1000, 2⟩], stale := [⟨0x3000, 1⟩] }

/-- The last input byte uncleaned and then cleaned, a stale byte and the byte after it, and each maintenance step. -/
theorem witness_MissingCacheMaintenanceIsRefused :
    (∀ op, (partlyCleaned op).turns = .host :: [] ∧ (partlyCleaned op).platform.coherent = false ∧
      (partlyCleaned op).hostOps = op :: [] ∧ (partlyCleaned op).status.busy = false) ∧
    (decodeWord 0x02 = .ok .qvUpdate ∧ nullFault .qvUpdate ops = false ∧ phaseFault .qvUpdate .absorb = false) ∧
    (∃ o ∈ footprint .qvUpdate ops, o.access = .read ∧ ∃ c, o.range.Has c ∧ ¬ InSome [⟨0x1000, 2⟩] c) ∧
    (∀ o ∈ footprint .qvUpdate ops, o.access = .read → ∀ c, o.range.Has c → InSome [⟨0x1000, 2⟩, ⟨0x1002, 1⟩] c) ∧
    (State.reset.platform.inBlock 0x3000 = false ∧ State.reset.platform.hostMemoryAt 0x3000 = true) ∧
    (InSome [⟨0x3000, 1⟩] 0x3000 ∧ ¬ InSome [⟨0x3000, 1⟩] 0x3001) ∧
    (∃ t, step (partlyCleaned (.memWrite 0x1001 7)) = .next t) := by
  refine ⟨fun _ => ⟨rfl, rfl, rfl, rfl⟩, ⟨rfl, rfl, rfl⟩, ⟨_, List.mem_singleton.2 rfl, rfl, 0x1002, ⟨by decide, by decide⟩, ?_⟩,
    ?_, by decide +kernel, ⟨⟨_, List.mem_singleton.2 rfl, by decide, by decide⟩, ?_⟩, ⟨_, rfl⟩⟩
  · rintro ⟨r, hr, h⟩
    rw [List.mem_singleton.1 hr] at h
    exact absurd h.2 (by decide)
  · intro o ho _ c hc
    rw [List.mem_singleton.1 ho] at hc
    have h1 : 0x1000 ≤ c := hc.1
    have h2 : c < 0x1003 := hc.2
    rcases Nat.lt_or_ge c 0x1002 with h | h
    · exact ⟨_, .head _, h1, h⟩
    · exact ⟨_, .tail _ (.head _), h, h2⟩
  · rintro ⟨r, hr, h⟩
    rw [List.mem_singleton.1 hr] at h
    exact absurd h.2 (by decide)

/-- The hypotheses of the three commands that load a fixed number of bytes and of `QV_COMPRESS`. -/
theorem witness_fixed_size_loads :
    (at1000 .lanesLoad ops).latch.operands.srcAddr ≠ 0 ∧
    (at1000 .lanesLoad ops).Admits .lanesLoad ∧ (at1000 .qvCompress ops).Admits .qvCompress ∧
    (at1000 .sboxLoad ops).Admits .sboxLoad ∧ (at1000 .hstateLoad ops).Admits .hstateLoad :=
  ⟨by decide, (clear_spec (by decide +kernel)).2, (clear_spec (by decide +kernel)).2,
    (clear_spec (by decide +kernel)).2, (clear_spec (by decide +kernel)).2⟩

/-- One byte that leaves the rate at 167, and one that fills it. -/
theorem witness_AbsorbXorsAtTheRateOffset : ∀ r ∈ ([166, 167] : List (Fin 169)),
    let s := { at1000 .spongeAbsorb { ops with srcLen := 1 } with sponge := { Sponge.reset with rateUsed := r } }
    s.Accepts .spongeAbsorb ∧ s.Admits .spongeAbsorb ∧ s.sponge.rateUsed.val ≤ 167 ∧
      s.sponge.rateUsed.val + s.latch.operands.srcLen.toNat ≤ 168 := by
  intro r hr s
  have h : clear .spongeAbsorb s = true ∧ r.val ≤ 167 ∧ r.val + (1 : Word).toNat ≤ 168 := by
    revert r
    decide +kernel
  exact ⟨(clear_spec h.1).1, (clear_spec h.1).2, h.2⟩

/-- A short range, and one that ends with the address space. -/
theorem witness_AbsorbSplitsAnywhere : ∀ o ∈ [ops, topOps],
    let s := at1000 .spongeAbsorb o
    s.sponge.phase = .absorb ∧ s.latch.operands.srcAddr ≠ 0 ∧
    s.latch.operands.srcAddr.toNat + (1 : Word).toNat + (2 : Word).toNat ≤ 2 ^ 64 ∧
    ∃ w t u, exec .spongeAbsorb { s with latch := { s.latch with operands := { s.latch.operands with
        srcLen := 1 + 2 } } } = .next w ∧
      exec .spongeAbsorb { s with latch := { s.latch with operands := { s.latch.operands with srcLen := 1 } } } =
        .next t ∧
      exec .spongeAbsorb { t with latch := { t.latch with operands := { t.latch.operands with
        srcAddr := s.latch.operands.srcAddr + 1, srcLen := 2 } } } = .next u := by
  intro o ho s
  simp only [List.mem_cons, List.not_mem_nil, or_false] at ho
  rcases ho with rfl | rfl <;>
    exact ⟨rfl, by decide, by decide, _, _, _, runs (by decide +kernel), runs (by decide +kernel),
      runs (by decide +kernel)⟩

/-- A fresh sponge, and one byte short of a full rate. -/
theorem witness_SpongeFinalPadsAndPermutes :
    (running 0x13 ops).sponge.phase = .absorb ∧
    ({ running 0x13 ops with sponge := { Sponge.reset with rateUsed := 167 } }).sponge.phase = .absorb := ⟨rfl, rfl⟩

/-- Two bytes that exhaust the rate, and two bytes from an exhausted one. -/
theorem witness_SqueezeCopiesTheRate :
    (∀ r ∈ ([166, 168] : List (Fin 169)), (at1000 .spongeSqueeze ops).mem.wf = true ∧
      ({ at1000 .spongeSqueeze ops with sponge := squeezing r }).Accepts .spongeSqueeze ∧
      ({ at1000 .spongeSqueeze ops with sponge := squeezing r }).Admits .spongeSqueeze) ∧
    ¬ ((166 : Fin 169).val = 168 ∧ ops.dstLen ≠ 0) ∧ 166 + ops.dstLen.toNat ≤ 168 ∧
    ((168 : Fin 169).val = 168 ∧ ops.dstLen ≠ 0) ∧ 0 + ops.dstLen.toNat ≤ 168 := by
  refine ⟨fun r hr => ⟨by decide, clear_spec ?_⟩, by decide, by decide, by decide, by decide⟩
  revert r
  decide +kernel

/-- A squeeze that runs through the rest of one rate and the whole of another, and one of nothing. -/
theorem witness_SqueezeSplitsAnywhere : ∀ n ∈ ([0, 300] : List Word),
    let s := { at1000 .spongeSqueeze { ops with dstLen := n } with sponge := squeezing 160 }
    s.mem.wf = true ∧ s.Accepts .spongeSqueeze ∧ s.Admits .spongeSqueeze := by
  intro n hn s
  have h : clear .spongeSqueeze s = true := by
    simp only [List.mem_cons, List.not_mem_nil, or_false] at hn
    rcases hn with rfl | rfl <;> decide +kernel
  exact ⟨rfl, clear_spec h⟩

theorem witness_SpongeStreamFrame :
    (∃ t, exec .spongeAbsorb (at1000 .spongeAbsorb ops) = .next t) ∧
    ∃ t, exec .spongeSqueeze { at1000 .spongeSqueeze ops with sponge := squeezing 168 } = .next t :=
  ⟨⟨_, runs (by decide +kernel)⟩,
    ⟨_, runs (by decide +kernel)⟩⟩

/-- A return to `ABSORB` and a change to `SQUEEZE`. -/
theorem witness_PhaseChangesOnlyOnInitAndFinal :
    (∃ t, exec .spongeInit { running 0x11 ops with sponge := squeezing 3 } = .next t ∧ t.sponge.phase = .absorb) ∧
    ∃ t, exec .spongeFinal (running 0x13 ops) = .next t ∧ t.sponge.phase = .squeeze :=
  ⟨⟨_, rfl, rfl⟩, ⟨_, rfl, rfl⟩⟩

theorem witness_QuarterMixLineByLine : 0 < 8 ∧ 5 < 8 ∧ 2 < 8 ∧ 7 < 8 ∧ 0 ≠ 5 ∧ 0 ≠ 2 ∧ 0 ≠ 7 ∧ 5 ≠ 2 ∧ 5 ≠ 7 ∧ 2 ≠ 7 := by
  decide

theorem witness_ZeroContextCompressesToZero : Context.reset.IsZero := by
  refine ⟨?_, ?_, ?_, rfl, rfl⟩ <;> decide +kernel

/-- With a key, and with the empty key at any address. -/
theorem witness_QvInitStartsAStream :
    (at1000 .qvInit ops).Accepts .qvInit ∧ (at1000 .qvInit ops).Admits .qvInit ∧
    (at1000 .qvInit nullOps).Accepts .qvInit ∧ (at1000 .qvInit nullOps).Admits .qvInit :=
  ⟨(clear_spec (by decide +kernel)).1, (clear_spec (by decide +kernel)).2, (clear_spec (by decide +kernel)).1,
    (clear_spec (by decide +kernel)).2⟩

/-- The four sponge commands on "abc", one after the other. -/
theorem witness_QvInitStartsAStream_sponge :
    ∃ s0 s1 s2 s3 t0 t1 t2 t3 : State,
      exec .spongeInit s0 = .next t0 ∧ s1.sponge = t0.sponge ∧
      exec .spongeAbsorb s1 = .next t1 ∧ t1.result = 0 ∧ s2.sponge = t1.sponge ∧
      exec .spongeFinal s2 = .next t2 ∧ s3.sponge = t2.sponge ∧ s3.mem.wf = true ∧
      exec .spongeSqueeze s3 = .next t3 ∧ t3.result = 0 ∧
      s1.mem.readBytes s1.latch.operands.srcAddr.toNat s1.latch.operands.srcLen.toNat = [0x61, 0x62, 0x63] := by
  let s1 : State := at1000 .spongeAbsorb ops
  let t1 := (effect .spongeAbsorb s1).complete .ok
  let s2 : State := { at1000 .spongeFinal ops with sponge := t1.sponge }
  let t2 := (effect .spongeFinal s2).complete .ok
  let s3 : State := { at1000 .spongeSqueeze ops with sponge := t2.sponge }
  exact ⟨at1000 .spongeInit ops, s1, s2, s3, _, t1, t2, _, rfl, by decide +kernel, runs (by decide +kernel), rfl, rfl,
    runs (by decide +kernel), rfl, by decide, runs (by decide +kernel), rfl, by decide +kernel⟩

/-- No byte, bytes that stay in the buffer, and bytes that complete a block, from an empty and from a full buffer. -/
theorem witness_QvUpdateAbsorbsTheData : ∀ n ∈ ([0, 3, 64] : List Word), ∀ k ∈ ([0, 1, 63] : List (Fin 64)),
    let s := { at1000 .qvUpdate { ops with srcLen := n } with ctx := { Context.reset with bufLen := k } }
    s.Accepts .qvUpdate ∧ s.Admits .qvUpdate := by
  intro n hn k hk s
  have h : clear .qvUpdate (at1000 .qvUpdate { ops with srcLen := n }) = true := by
    simp only [List.mem_cons, List.not_mem_nil, or_false] at hn
    rcases hn with rfl | rfl | rfl <;> decide +kernel
  exact clear_spec (i := .qvUpdate) (s := s) h

/-- A digest that ends with the address space. -/
theorem witness_QvFinalWritesTheDigest :
    (at1000 .qvFinal topOps).mem.wf = true ∧ (at1000 .qvFinal topOps).latch.operands.dstAddr ≠ 0 ∧
    (at1000 .qvFinal topOps).Admits .qvFinal :=
  ⟨by decide, by decide, (clear_spec (by decide +kernel)).2⟩

/-- Both sides of the boundary between one and two final blocks. -/
theorem witness_tails :
    ({ Context.reset with bufLen := 55 }).bufLen.val ≤ 55 ∧ 56 ≤ ({ Context.reset with bufLen := 56 }).bufLen.val ∧
    56 ≤ ({ Context.reset with bufLen := 63 }).bufLen.val := by decide

theorem witness_OneShotHashIsInitUpdateFinal : ∀ i ∈ [Instr.qvHash, .vortexHash],
    (i = .qvHash ∨ i = .vortexHash) ∧ (at1000 i ops).mem.wf = true ∧ (at1000 i ops).Accepts i ∧
      (at1000 i ops).Admits i := by
  intro i hi
  have h : (i = .qvHash ∨ i = .vortexHash) ∧ (at1000 i ops).mem.wf = true ∧ clear i (at1000 i ops) = true := by
    revert i
    decide +kernel
  exact ⟨h.1, h.2.1, clear_spec h.2.2⟩

theorem witness_UninitialisedFinalWritesZeros :
    (at1000 .qvFinal ops).mem.wf = true ∧ (at1000 .qvFinal ops).latch.operands.dstAddr ≠ 0 ∧
    (at1000 .qvFinal ops).Admits .qvFinal ∧ (at1000 .qvFinal ops).ctx.IsZero :=
  ⟨by decide, by decide, (clear_spec (by decide +kernel)).2, witness_ZeroContextCompressesToZero⟩

/-- Two machines that hash the same key and data from different addresses. -/
theorem witness_DigestDependsOnKeyAndDataOnly :
    let s := at1000 .qvHash ops
    let s' := { at1000 .vortexHash { ops with srcAddr := 0x5000 } with
      mem := [(0x5000, 0x61), (0x5001, 0x62), (0x5002, 0x63)] }
    s.mem.wf = true ∧ s'.mem.wf = true ∧
    (∃ t t', exec .qvHash s = .next t ∧ t.result = 0 ∧ exec .vortexHash s' = .next t' ∧ t'.result = 0) ∧
    s.mem.readBytes s.latch.operands.keyAddr.toNat s.latch.operands.keyLen.toNat =
      s'.mem.readBytes s'.latch.operands.keyAddr.toNat s'.latch.operands.keyLen.toNat ∧
    s.mem.readBytes s.latch.operands.srcAddr.toNat s.latch.operands.srcLen.toNat =
      s'.mem.readBytes s'.latch.operands.srcAddr.toNat s'.latch.operands.srcLen.toNat :=
  ⟨by decide, by decide,
    ⟨_, _, runs (by decide +kernel), rfl,
      runs (by decide +kernel), rfl⟩, by decide +kernel, by decide +kernel⟩

/-- A stream of one update of "abc", and the one-shot hash of "abc". -/
theorem witness_StreamingEquivalence :
    let s0 := at1000 .qvInit ops
    let r := at1000 .qvHash ops
    ∃ s1 s2 s3 r', exec .qvInit s0 = .next s1 ∧ s1.result = 0 ∧ State.StreamsTo s1 [[0x61, 0x62, 0x63]] s2 ∧
      s2.mem.wf = true ∧ exec .qvFinal s2 = .next s3 ∧ s3.result = 0 ∧ r.mem.wf = true ∧
      exec .qvHash r = .next r' ∧ r'.result = 0 ∧
      r.mem.readBytes r.latch.operands.keyAddr.toNat r.latch.operands.keyLen.toNat =
        s0.mem.readBytes s0.latch.operands.keyAddr.toNat s0.latch.operands.keyLen.toNat ∧
      r.mem.readBytes r.latch.operands.srcAddr.toNat r.latch.operands.srcLen.toNat =
        ([[0x61, 0x62, 0x63]] : List (List Byte)).flatten := by
  intro s0 r
  have h0 : exec .qvInit s0 = .next ((effect .qvInit s0).complete .ok) :=
    runs (by decide +kernel)
  let u : State := { at1000 .qvUpdate ops with ctx := ((effect .qvInit s0).complete .ok).ctx }
  have h1 : exec .qvUpdate u = .next ((effect .qvUpdate u).complete .ok) :=
    runs (by decide +kernel)
  let v : State := { at1000 .qvFinal ops with ctx := ((effect .qvUpdate u).complete .ok).ctx }
  refine ⟨_, v, _, _, h0, rfl, ⟨u, _, rfl, by decide +kernel, h1, rfl, rfl⟩, by decide,
    runs (by decide +kernel), rfl, by decide,
    runs (by decide +kernel), rfl, by decide +kernel, by decide +kernel⟩

/-! ### The slower tests, last: whole permutations and compressions -/

/-- K3 of 95_test_vectors.md, lanes 0, 5 and 24 after each step of round 0 on `A[i] = i`. -/
theorem test_keccak_round :
    let a : Lanes := tabulate 25 fun i => BitVec.ofNat 64 i
    [entry (theta a) 0, entry (theta a) 5, entry (theta a) 24] = [0x1A, 0x1F, 0x33] ∧
    [entry (rhoPi (theta a)) 5, entry (rhoPi (theta a)) 24] = [0x00000001D0000000, 0x74] ∧
    [entry (chi (rhoPi (theta a))) 0, entry (chi (rhoPi (theta a))) 24] = [0x000018000000001A, 0x0B00000000000074] ∧
    entry (keccakRound a 0) 0 = 0x000018000000001B := by decide +kernel

/-- K1 of 95_test_vectors.md. -/
theorem test_keccakF : next? (exec .keccakF (running 0x10 ops))
    (fun t => entry t.sponge.lanes 0 == 0xF1258F7940E1DDE7 && t.result == 0) = true := by decide +kernel

/-- S1 of 95_test_vectors.md. -/
theorem test_spongeFinal : next? (exec .spongeFinal (running 0x13 ops))
    (fun t => entry t.sponge.lanes 0 == 0x7D828FE8A42B9C7F && t.sponge.ctrlWord == 0x100) = true := by decide +kernel

/-- S3 of 95_test_vectors.md: the empty-key seed begins C5 B3. -/
theorem test_default_seed : (seedWith .absorb []).take 2 = [0xC5, 0xB3] := by decide +kernel

/-- C2 of 95_test_vectors.md: `H = IV`, the identity table, a block of zeros. -/
theorem test_compress :
    let h := compress ivWords (tabulate 256 fun i => BitVec.ofNat 8 i) (tabulate 64 fun _ => 0)
    entry h 0 = 0x0F0862E517B41071 ∧ entry h 7 = 0x38CF078DE5F2267A := by decide +kernel

end Sys2Proof.Tests
end

section
/-! The register block and the reset state (10_state.md): the statements on the windows, on the control registers, on
`CMD` and on the reset values, with the lemmas on words and registers that they rest on. -/

namespace Sys2Proof.Machine

/-! ### Reset (10_state.md R50) -/

theorem sponge_reset_isFresh : Sponge.reset.IsFresh :=
  ⟨fun _ hi => entry_replicate 0 hi, rfl, rfl⟩

theorem context_reset_isZero : Context.reset.IsZero :=
  ⟨fun _ hi => entry_replicate 0 hi, fun _ hi => entry_replicate 0 hi, fun _ hi => entry_replicate 0 hi, rfl, rfl⟩

/-- Settles O7: the register files are replicated zeros, the other registers are 0 by definition. -/
theorem resetValues : Obligations.ResetValues :=
  ⟨sponge_reset_isFresh, context_reset_isZero, rfl, rfl, rfl, rfl, rfl, rfl⟩

/-! ### Writes and reads of `CMD` (10_state.md R35, 60_exceptions.md R210) -/

@[simp] theorem writeReg_cmd (s : State) (w : Word32) : s.writeReg 0x000 w = s.writeCmd w := rfl

theorem writeCmd_of_idle {s : State} (hb : s.status.busy = false) (w : Word32) :
    s.writeCmd w = { s with
      latch := { op := w, operands := s.operands },
      status := { busy := true, isDone := false, overrun := s.status.overrun } } := by
  simp [State.writeCmd, State.latchCommand, hb]

theorem writeCmd_of_busy {s : State} (hb : s.status.busy = true) (w : Word32) :
    s.writeCmd w = { s with status := { busy := true, isDone := s.status.isDone, overrun := true } } := by
  simp [State.writeCmd, hb]

/-- Below the control registers a read is defined at all times (10_state.md R48). -/
theorem readReg_below (s : State) {off : Nat} (h : off < 0x60) : s.readReg off = some (s.plainReg off) :=
  readReg_of_plain (engineReg_below s h)

/-- Settles O19, by the two cases of `BUSY`; `CMD` is none of the registers that `plainReg` shows. -/
theorem cmdWriteIsAcceptedOrDropped : Obligations.CmdWriteIsAcceptedOrDropped := fun s w =>
  ⟨fun hb => (writeReg_cmd s w).trans (writeCmd_of_idle hb w),
    fun hb => (writeReg_cmd s w).trans (writeCmd_of_busy hb w), readReg_below s (by decide)⟩

/-! ### The lane and `HSTATE` windows by halves (10_state.md R43, R44) -/

theorem le32_congr {f g : Nat → Byte} (h : ∀ b, b < 4 → f b = g b) : le32 f = le32 g := by
  simp [le32, h 0, h 1, h 2, h 3]

/-- Four bytes of a word from byte `k` on are its 32 bits from bit `8k` on. -/
theorem le32_byteOf (w : Word) (k : Nat) : le32 (fun b => byteOf w (k + b)) = w.extractLsb' (8 * k) 32 := by
  apply BitVec.eq_of_getLsbD_eq
  intro j hj
  simp only [le32, BitVec.getLsbD_append, getLsbD_byteOf, BitVec.getLsbD_extractLsb']
  interval_cases j <;> simp [Nat.mul_add, Nat.add_assoc]

theorem laneReg_even (a : Lanes) (i : Nat) : laneReg a (2 * i) = (entry a i).extractLsb' 0 32 := by
  rw [← le32_byteOf _ 0]
  refine le32_congr fun b hb => ?_
  rw [stateByte, show (4 * (2 * i) + b) / 8 = i by omega, show (4 * (2 * i) + b) % 8 = 0 + b by omega]

theorem laneReg_odd (a : Lanes) (i : Nat) : laneReg a (2 * i + 1) = (entry a i).extractLsb' 32 32 := by
  rw [← le32_byteOf _ 4]
  refine le32_congr fun b hb => ?_
  rw [stateByte, show (4 * (2 * i + 1) + b) / 8 = i by omega, show (4 * (2 * i + 1) + b) % 8 = 4 + b by omega]

theorem hstateReg_even (h : Chain) (i : Nat) : hstateReg h (2 * i) = (entry h i).extractLsb' 0 32 := by
  rw [hstateReg, if_pos (by omega), show 2 * i / 2 = i by omega, loHalf]

theorem hstateReg_odd (h : Chain) (i : Nat) : hstateReg h (2 * i + 1) = (entry h i).extractLsb' 32 32 := by
  rw [hstateReg, if_neg (by omega), show (2 * i + 1) / 2 = i by omega, hiHalf]

/-! ### Window reads while idle -/

section idle
variable {s : State} (hb : s.status.busy = false)
include hb

theorem readReg_lane {j : Nat} (hj : j ≤ 49) : s.readReg (0x100 + 4 * j) = some (laneReg s.sponge.lanes j) :=
  readReg_of_engine hb (engineReg_lane s j hj)

theorem readReg_lane_lo {i : Nat} (hi : i < 25) :
    s.readReg (0x100 + 8 * i) = some ((entry s.sponge.lanes i).extractLsb' 0 32) := by
  rw [← laneReg_even, show 0x100 + 8 * i = 0x100 + 4 * (2 * i) by omega, readReg_lane hb (by omega)]

theorem readReg_lane_hi {i : Nat} (hi : i < 25) :
    s.readReg (0x104 + 8 * i) = some ((entry s.sponge.lanes i).extractLsb' 32 32) := by
  rw [← laneReg_odd, show 0x104 + 8 * i = 0x100 + 4 * (2 * i + 1) by omega, readReg_lane hb (by omega)]

theorem readReg_hstate {j : Nat} (hj : j ≤ 15) : s.readReg (0x200 + 4 * j) = some (hstateReg s.ctx.h j) :=
  readReg_of_engine hb (engineReg_hstate s j hj)

theorem readReg_hstate_lo {i : Nat} (hi : i < 8) :
    s.readReg (0x200 + 8 * i) = some ((entry s.ctx.h i).extractLsb' 0 32) := by
  rw [← hstateReg_even, show 0x200 + 8 * i = 0x200 + 4 * (2 * i) by omega, readReg_hstate hb (by omega)]

theorem readReg_hstate_hi {i : Nat} (hi : i < 8) :
    s.readReg (0x204 + 8 * i) = some ((entry s.ctx.h i).extractLsb' 32 32) := by
  rw [← hstateReg_odd, show 0x204 + 8 * i = 0x200 + 4 * (2 * i + 1) by omega, readReg_hstate hb (by omega)]

theorem readReg_sbox {j : Nat} (hj : j < 64) : s.readReg (0x300 + 4 * j) = some (sboxReg s.ctx.sbox j) :=
  readReg_of_engine hb (engineReg_sbox s j hj)

theorem readReg_buf {j : Nat} (hj : j < 16) : s.readReg (0x400 + 4 * j) = some (bufReg s.ctx.buf j) :=
  readReg_of_engine hb (engineReg_buf s j hj)

theorem readReg_spongeCtrl : s.readReg 0x060 = some s.sponge.ctrlWord := readReg_of_engine hb rfl

theorem readReg_bufLen : s.readReg 0x064 = some (BitVec.ofNat 32 s.ctx.bufLen.val) := readReg_of_engine hb rfl

theorem readReg_totalLen_lo : s.readReg 0x068 = some (s.ctx.totalLen.extractLsb' 0 32) := readReg_of_engine hb rfl

theorem readReg_totalLen_hi : s.readReg 0x06C = some (s.ctx.totalLen.extractLsb' 32 32) := readReg_of_engine hb rfl

end idle

/-- Settles O23: a register of the window is four state bytes, and the two registers of a lane are its halves. -/
theorem laneWindowShowsTheLaneFile : Obligations.LaneWindowShowsTheLaneFile := by
  intro s hb
  refine ⟨fun j hj => ⟨_, readReg_lane hb hj, fun b hb4 => ?_⟩,
    fun i hi => ⟨readReg_lane_lo hb hi, readReg_lane_hi hb hi⟩⟩
  exact extractLsb'_le32 (fun b => stateByte s.sponge.lanes (4 * j + b)) hb4

/-! ### The fields of `SPONGE_CTRL` (10_state.md R41) -/

/-- `PHASE` stands above the eight bits of `RATE_USED`, so the two do not meet. -/
theorem ctrlWord_toNat (p : Sponge) : p.ctrlWord.toNat = 2 ^ 8 * p.phase.bit.toNat + p.rateUsed.val := by
  have hr := p.rateUsed.isLt
  rw [Nat.two_pow_add_eq_or_of_lt (by omega), Nat.or_comm, Sponge.ctrlWord, BitVec.toNat_or, BitVec.toNat_ofNat,
    Nat.mod_eq_of_lt (by omega)]
  cases p.phase <;> rfl

theorem phase_bit_toNat (p : Phase) : p.bit.toNat = (p == .squeeze).toNat := by
  cases p <;> rfl

theorem ctrlWord_rateUsed (p : Sponge) : (p.ctrlWord.extractLsb' 0 8).toNat = p.rateUsed.val := by
  rw [BitVec.extractLsb'_toNat, ctrlWord_toNat, Nat.shiftRight_zero, Nat.mul_add_mod,
    Nat.mod_eq_of_lt (by have := p.rateUsed.isLt; omega)]

theorem ctrlWord_phase (p : Sponge) : p.ctrlWord.getLsbD 8 = (p.phase == .squeeze) := by
  have hr : p.rateUsed.val < 2 ^ 8 := by have := p.rateUsed.isLt; omega
  rw [← BitVec.testBit_toNat, ctrlWord_toNat, Nat.testBit_two_pow_mul_add _ hr, phase_bit_toNat]
  cases p.phase == .squeeze <;> rfl

theorem ctrlWord_reserved (p : Sponge) : p.ctrlWord.extractLsb' 9 23 = 0 := by
  apply BitVec.eq_of_toNat_eq
  have hr := p.rateUsed.isLt
  have hp := Bool.toNat_le (p.phase == .squeeze)
  rw [BitVec.extractLsb'_toNat, ctrlWord_toNat, phase_bit_toNat, Nat.shiftRight_eq_div_pow, Nat.div_eq_of_lt (by omega)]
  rfl

/-- Settles O24: each clause is the read of one register or window. -/
theorem contextRegistersShowTheContext : Obligations.ContextRegistersShowTheContext := by
  refine ⟨fun s => ⟨readReg_below s (by decide), readReg_below s (by decide), readReg_below s (by decide)⟩,
    fun s hb => ⟨fun i hi => ⟨readReg_hstate_lo hb hi, readReg_hstate_hi hb hi⟩, ?spongeCtrl, ?bufLen,
      readReg_totalLen_lo hb, readReg_totalLen_hi hb, ?sbox, ?buf⟩⟩
  case spongeCtrl =>
    exact ⟨_, readReg_spongeCtrl hb, ctrlWord_rateUsed _, ctrlWord_phase _, ctrlWord_reserved _⟩
  case bufLen =>
    exact ⟨_, readReg_bufLen hb, Nat.mod_eq_of_lt (by omega)⟩
  case sbox =>
    exact fun j hj => ⟨_, readReg_sbox hb hj, fun _ hb4 => extractLsb'_le32 (fun b => entry s.ctx.sbox (4 * j + b)) hb4⟩
  case buf =>
    exact fun j hj => ⟨_, readReg_buf hb hj, fun _ hb4 => extractLsb'_le32 (fun b => entry s.ctx.buf (4 * j + b)) hb4⟩

end Sys2Proof.Machine
end

section
/-! The encoding (30_encoding.md): what the decoder and the engine answer on the words of R83. -/

namespace Sys2Proof

theorem decodeWord_of_mbz_ne_zero {w : Word32} (h : mbzField w ≠ 0) : decodeWord w = .error .mbzNonzero :=
  if_neg h

theorem decodeWord_of_opcode_unlisted {w : Word32} (hm : mbzField w = 0)
    (h : ∀ row ∈ opcodeMap, row.1 ≠ opcodeField w) : decodeWord w = .error .opcodeUnlisted := by
  have hf : opcodeMap.find? (fun row => row.1 == opcodeField w) = none := by simpa using h
  rw [decodeWord, if_pos hm, hf]

/-- The numbers in the opcode ranges of the illegal words (30_encoding.md R83). -/
def IllegalOpcode (op : Nat) : Prop :=
  op = 0x00 ∨ (0x06 ≤ op ∧ op ≤ 0x0F) ∨ (0x16 ≤ op ∧ op ≤ 0x1F) ∨ (0x23 ≤ op ∧ op ≤ 0xFF)

/-- The opcodes of the map (30_encoding.md R82) lie in the gaps between the ranges of R83. -/
theorem not_illegalOpcode_of_mem_opcodeMap : ∀ row ∈ opcodeMap, ¬ IllegalOpcode row.1.toNat := by
  unfold IllegalOpcode
  decide

theorem decodeWord_of_illegal {w : Word32} (h : mbzField w ≠ 0 ∨ IllegalOpcode (opcodeField w).toNat) :
    ∃ e, decodeWord w = .error e := by
  by_cases hm : mbzField w = 0
  · have hop := h.resolve_left (not_not_intro hm)
    refine ⟨_, decodeWord_of_opcode_unlisted hm fun row hrow heq => ?_⟩
    exact not_illegalOpcode_of_mem_opcodeMap row hrow (heq ▸ hop)
  · exact ⟨_, decodeWord_of_mbz_ne_zero hm⟩

end Sys2Proof

namespace Sys2Proof.Machine

theorem executeLatched_of_decode_error {s : State} {e : DecodeError} (h : decodeWord s.latch.op = .error e) :
    executeLatched s = .next (s.complete .eIllegal) := by
  rw [executeLatched, h]

theorem finishes_complete (s : State) (c : ResultCode) : s.Finishes (s.complete c) c := by
  constructor <;> rfl

/-- Settles O3: the decoder answers an error on every such word, and completion touches only `RESULT`, `BUSY` and
`DONE`. -/
theorem illegalWordChangesNothing : Obligations.IllegalWordChangesNothing := by
  intro s w hw hillegal
  obtain ⟨e, he⟩ := decodeWord_of_illegal hillegal
  exact ⟨s.complete .eIllegal, executeLatched_of_decode_error (hw ▸ he), finishes_complete s .eIllegal, rfl,
    complete_sponge s _, complete_ctx s _, complete_mem s _⟩

end Sys2Proof.Machine
end

section
/-! The Keccak steps (40_keccak.md): θ, χ and ι lane by lane, and the round constants against their generator. -/

namespace Sys2Proof.Machine

/-! ### The θ step lane by lane (40_keccak.md R101) -/

theorem entry_thetaC (a : Lanes) {x : Nat} (hx : x < 5) :
    entry (thetaC a) x =
      entry a x ^^^ entry a (x + 5) ^^^ entry a (x + 10) ^^^ entry a (x + 15) ^^^ entry a (x + 20) :=
  entry_tabulate _ hx

theorem entry_thetaD (c : Vector Word 5) {x : Nat} (hx : x < 5) :
    entry (thetaD c) x = rotl64 (entry c ((x + 1) % 5)) 1 ^^^ entry c ((x + 4) % 5) :=
  entry_tabulate _ hx

/-- A lane after θ: the `D` of its column is the rotated parity of the next column with the parity of the
previous one. -/
theorem entry_theta (a : Lanes) {i : Nat} (hi : i < 25) :
    entry (theta a) i = entry a i ^^^
      (rotl64 (entry (thetaC a) ((i + 1) % 5)) 1 ^^^ entry (thetaC a) ((i + 4) % 5)) := by
  rw [theta, entry_tabulate _ hi, entry_thetaD _ (Nat.mod_lt i (by decide)), Nat.mod_add_mod, Nat.mod_add_mod]

/-- Settles O31: θ from the parities of the two neighbouring columns; χ and ι are `entry_chi` and `entry_iota`. -/
theorem keccakStepsLaneByLane : Obligations.KeccakStepsLaneByLane := by
  refine fun a => ⟨fun i hi => ?_, fun _ _ => entry_chi a, fun rc _ => entry_iota a rc⟩
  rw [entry_theta a hi, entry_thetaC a (Nat.mod_lt _ (by decide)), entry_thetaC a (Nat.mod_lt _ (by decide))]

/-! ### The round constants (40_keccak.md R105, R106) -/

/-- Settles O34, by evaluation of the LFSR for each of the 24 rounds. -/
theorem roundConstantsAreTheLfsr : Obligations.RoundConstantsAreTheLfsr := by
  unfold Obligations.RoundConstantsAreTheLfsr
  decide

end Sys2Proof.Machine
end

section
/-! The sponge (41_sponge.md): the two commands without a memory operand, `SPONGE_INIT` and `SPONGE_FINAL`, with the
facts about the fresh sponge and the padding that they rest on. -/

namespace Sys2Proof.Machine

/-! ### Commands that complete with `OK` -/

/-- 60_exceptions.md R208: no effect reaches what completion leaves alone. -/
theorem finishes_effect (i : Instr) (s : State) (c : ResultCode) : s.Finishes ((effect i s).complete c) c := by
  constructor <;> simp

theorem admits_of_footprint_nil {i : Instr} {s : State} (h : footprint i s.latch.operands = []) : s.Admits i := by
  simp only [State.Admits, h, stuckOn_nil, List.any_nil, and_self]

/-! ### `SPONGE_INIT` (41_sponge.md R122, R127) -/

theorem sponge_init_isFresh : Sponge.init.IsFresh :=
  ⟨fun _ hi => entry_tabulate _ hi, rfl, rfl⟩

theorem exec_spongeInit (s : State) : exec .spongeInit s = .next ((effect .spongeInit s).complete .ok) :=
  exec_of_accepts ⟨rfl, rfl⟩ (admits_of_footprint_nil rfl)

theorem effect_spongeInit (s : State) : effect .spongeInit s = { s with sponge := Sponge.init } := rfl

/-- Settles O37: the command has no check and no operand range, so it always completes, with the fresh sponge. -/
theorem spongeInitClearsTheSponge : Obligations.SpongeInitClearsTheSponge := by
  refine fun s => ⟨_, exec_spongeInit s, finishes_effect .spongeInit s .ok, ?fresh, ?ctx, fun c => ?mem⟩
  case fresh => simpa only [complete_sponge, effect_spongeInit] using sponge_init_isFresh
  case ctx => rw [complete_ctx, effect_spongeInit]
  case mem => rw [complete_mem, effect_spongeInit]

/-! ### `SPONGE_FINAL` (41_sponge.md R124, R129) -/

/-- `XorStateByte` byte by byte, as an XOR with a byte that is 0 except at `k`. -/
theorem stateByte_xorStateByte_eq_xor (a : Lanes) {k j : Nat} (v : Byte) (hk : k < 200) (hj : j < 200) :
    stateByte (xorStateByte a k v) j = stateByte a j ^^^ (if j = k then v else 0) := by
  rw [stateByte_xorStateByte a k v hk j hj]
  by_cases h : j = k <;> simp [h]

/-- The lane file of `sponge_finalize()` before its permutation (41_sponge.md R124). -/
def Sponge.padded (p : Sponge) : Lanes := xorStateByte (xorStateByte p.lanes p.rateUsed.val 0x1F) 167 0x80

/-- Byte 167 may be hit by both XORs: the conditions do not exclude each other. -/
theorem stateByte_padded (p : Sponge) {k : Nat} (hk : k < 200) :
    stateByte p.padded k = stateByte p.lanes k ^^^ (if k = p.rateUsed.val then 0x1F else 0) ^^^
      (if k = 167 then 0x80 else 0) := by
  rw [Sponge.padded, stateByte_xorStateByte_eq_xor _ _ (by decide) hk,
    stateByte_xorStateByte_eq_xor _ _ (p.rateUsed.isLt.trans (by decide)) hk]

theorem sponge_finalize_eq (p : Sponge) :
    p.finalize = { lanes := keccakF p.padded, rateUsed := 0, phase := .squeeze } := rfl

theorem exec_spongeFinal {s : State} (h : s.sponge.phase = .absorb) :
    exec .spongeFinal s = .next ((effect .spongeFinal s).complete .ok) :=
  exec_of_accepts ⟨rfl, by rw [h]; rfl⟩ (admits_of_footprint_nil rfl)

theorem effect_spongeFinal (s : State) : effect .spongeFinal s = { s with sponge := s.sponge.finalize } := rfl

/-- Settles O40: the permuted lane file is `Sponge.padded`, whose bytes `stateByte_padded` gives. -/
theorem spongeFinalPadsAndPermutes : Obligations.SpongeFinalPadsAndPermutes := by
  refine fun s h => ⟨_, s.sponge.padded, exec_spongeFinal h, finishes_effect .spongeFinal s .ok, ?_,
    fun k hk => stateByte_padded s.sponge hk, ?_, ?_, ?_, fun c => ?_⟩
  all_goals simp only [complete_sponge, complete_ctx, complete_mem, effect_spongeFinal, sponge_finalize_eq]

end Sys2Proof.Machine
end

section
/-! The compressor (42_sbox_compress.md): the quarter-mix, from one rule for its line. -/

namespace Sys2Proof.Machine

/-! ### The quarter-mix (42_sbox_compress.md R146) -/

/-- One line of the quarter-mix, word by word: the rotated word `d` takes the sum just written to `a`. -/
theorem entry_mixLine (s : Chain) (b r : Nat) {a d i : Nat} (ha : a < 8) (hd : d < 8) (had : a ≠ d) (hi : i < 8) :
    entry (mixLine s a b d r) i =
      if i = d then rotl64 (entry s d ^^^ (entry s a + entry s b)) r
      else if i = a then entry s a + entry s b else entry s i := by
  simp only [mixLine, entry_setWord _ _ _ hi, entry_setWord _ _ _ ha, entry_setWord _ _ _ hd, if_neg had.symm,
    if_true]

theorem entry_mixLine_sum (s : Chain) (b r : Nat) {a d : Nat} (ha : a < 8) (hd : d < 8) (had : a ≠ d) :
    entry (mixLine s a b d r) a = entry s a + entry s b := by
  rw [entry_mixLine s b r ha hd had ha, if_neg had, if_pos rfl]

theorem entry_mixLine_rotated (s : Chain) (b r : Nat) {a d : Nat} (ha : a < 8) (hd : d < 8) (had : a ≠ d) :
    entry (mixLine s a b d r) d = rotl64 (entry s d ^^^ (entry s a + entry s b)) r := by
  rw [entry_mixLine s b r ha hd had hd, if_pos rfl]

theorem entry_mixLine_of_ne (s : Chain) (b r : Nat) {a d i : Nat} (ha : a < 8) (hd : d < 8) (had : a ≠ d) (hi : i < 8)
    (hia : i ≠ a) (hid : i ≠ d) : entry (mixLine s a b d r) i = entry s i := by
  rw [entry_mixLine s b r ha hd had hi, if_neg hid, if_neg hia]

/-- Half of a quarter-mix: a line on `a, b, d`, then the same line on `c, d, b`. -/
def mixHalf (s : Chain) (a b c d r r' : Nat) : Chain := mixLine (mixLine s a b d r) c d b r'

theorem quarterMix_eq_mixHalf (s : Chain) (a b c d : Nat) :
    quarterMix s a b c d = mixHalf (mixHalf s a b c d 32 24) a b c d 16 63 := rfl

/-- The words after half a quarter-mix, in the order in which they are written: each from the ones written before it. -/
theorem entry_mixHalf (s : Chain) (r r' : Nat) {a b c d : Nat} (ha : a < 8) (hb : b < 8) (hc : c < 8) (hd : d < 8)
    (hab : a ≠ b) (hac : a ≠ c) (had : a ≠ d) (hbc : b ≠ c) (hbd : b ≠ d) (hcd : c ≠ d) :
    entry (mixHalf s a b c d r r') a = entry s a + entry s b ∧
    entry (mixHalf s a b c d r r') d = rotl64 (entry s d ^^^ entry (mixHalf s a b c d r r') a) r ∧
    entry (mixHalf s a b c d r r') c = entry s c + entry (mixHalf s a b c d r r') d ∧
    entry (mixHalf s a b c d r r') b = rotl64 (entry s b ^^^ entry (mixHalf s a b c d r r') c) r' := by
  have ea : entry (mixHalf s a b c d r r') a = entry s a + entry s b := by
    rw [mixHalf, entry_mixLine_of_ne _ d r' hc hb hbc.symm ha hac hab, entry_mixLine_sum s b r ha hd had]
  have ed : entry (mixHalf s a b c d r r') d = entry (mixLine s a b d r) d :=
    entry_mixLine_of_ne _ d r' hc hb hbc.symm hd hcd.symm hbd.symm
  have ec : entry (mixHalf s a b c d r r') c = entry s c + entry (mixHalf s a b c d r r') d := by
    rw [ed, mixHalf, entry_mixLine_sum _ d r' hc hb hbc.symm, entry_mixLine_of_ne s b r ha hd had hc hac.symm hcd]
  refine ⟨ea, ?_, ec, ?_⟩
  · rw [ed, ea, entry_mixLine_rotated s b r ha hd had]
  · rw [ec, ed, mixHalf, entry_mixLine_rotated _ d r' hc hb hbc.symm,
      entry_mixLine_of_ne s b r ha hd had hb hab.symm hbd, entry_mixLine_of_ne s b r ha hd had hc hac.symm hcd]

theorem entry_mixHalf_of_ne (s : Chain) (r r' : Nat) {a b c d i : Nat} (ha : a < 8) (hb : b < 8) (hc : c < 8)
    (hd : d < 8) (had : a ≠ d) (hbc : b ≠ c) (hi : i < 8) (hia : i ≠ a) (hib : i ≠ b) (hic : i ≠ c) (hid : i ≠ d) :
    entry (mixHalf s a b c d r r') i = entry s i := by
  rw [mixHalf, entry_mixLine_of_ne _ d r' hc hb hbc.symm hi hic hib, entry_mixLine_of_ne s b r ha hd had hi hia hid]

/-- Settles O45: the quarter-mix is two halves, and the words of the second are built from those of the first. -/
theorem quarterMixLineByLine : Obligations.QuarterMixLineByLine := by
  intro s a b c d ha hb hc hd hab hac had hbc hbd hcd a1 d1 c1 b1 a2 d2 c2 b2
  rw [quarterMix_eq_mixHalf]
  obtain ⟨ea1, ed1, ec1, eb1⟩ := entry_mixHalf s 32 24 ha hb hc hd hab hac had hbc hbd hcd
  obtain ⟨ea2, ed2, ec2, eb2⟩ := entry_mixHalf (mixHalf s a b c d 32 24) 16 63 ha hb hc hd hab hac had hbc hbd hcd
  -- R146: each line uses the value the previous line wrote.
  rw [ea1] at ed1
  rw [ed1] at ec1
  rw [ec1] at eb1
  rw [ea1, eb1] at ea2
  rw [ed1, ea2] at ed2
  rw [ec1, ed2] at ec2
  rw [eb1, ec2] at eb2
  refine ⟨ea2, eb2, ec2, ed2, fun i hi hia hib hic hid => ?frame⟩
  case frame =>
    rw [entry_mixHalf_of_ne _ 16 63 ha hb hc hd had hbc hi hia hib hic hid,
      entry_mixHalf_of_ne s 32 24 ha hb hc hd had hbc hi hia hib hic hid]

end Sys2Proof.Machine
end

section
/-! The streaming functions (43_stream.md R170 to R173): `stream_update` as the compression of the whole blocks of
one byte string, wherever it is cut, and the digest as a function of the stream. -/

namespace Sys2Proof.Machine

/-! ### Whole blocks (43_stream.md R171 step 3) -/

theorem compressBlocks_zero (sbox : SBox) (h : Chain) (d : List Byte) : compressBlocks sbox 0 h d = (h, d) := rfl

theorem compressBlocks_succ (sbox : SBox) (q : Nat) (h : Chain) (d : List Byte) :
    compressBlocks sbox (q + 1) h d =
      compressBlocks sbox q (compress h sbox (bytesVector 64 (d.take 64))) (d.drop 64) := rfl

theorem compressBlocks_add (sbox : SBox) (q r : Nat) (h : Chain) (d : List Byte) :
    compressBlocks sbox (q + r) h d =
      compressBlocks sbox r (compressBlocks sbox q h d).1 (compressBlocks sbox q h d).2 := by
  induction q generalizing h d with
  | zero => rw [Nat.zero_add, compressBlocks_zero]
  | succ q ih => rw [Nat.add_right_comm, compressBlocks_succ, ih, compressBlocks_succ]

/-- Bytes after the blocks that are compressed wait behind the bytes left. -/
theorem compressBlocks_append (sbox : SBox) {q : Nat} (h : Chain) {x : List Byte} (d : List Byte)
    (hq : 64 * q ≤ x.length) :
    compressBlocks sbox q h (x ++ d) = ((compressBlocks sbox q h x).1, (compressBlocks sbox q h x).2 ++ d) := by
  induction q generalizing h x with
  | zero => simp only [compressBlocks_zero]
  | succ q ih =>
    have hx : 64 ≤ x.length := by omega
    rw [compressBlocks_succ, List.take_append_of_le_length hx, List.drop_append_of_le_length hx,
      ih _ (by rw [List.length_drop]; omega), compressBlocks_succ]

/-- Every whole block of `x` compressed from the chaining state `h`: the chaining state and the bytes left. -/
def drain (sbox : SBox) (h : Chain) (x : List Byte) : Chain × List Byte := compressBlocks sbox (x.length / 64) h x

theorem drain_of_lt (sbox : SBox) (h : Chain) {x : List Byte} (hx : x.length < 64) : drain sbox h x = (h, x) := by
  rw [drain, Nat.div_eq_of_lt hx, compressBlocks_zero]

theorem drain_block (sbox : SBox) (h : Chain) {x : List Byte} (hx : x.length = 64) :
    drain sbox h x = (compress h sbox (bytesVector 64 x), []) := by
  rw [drain, hx, show 64 / 64 = 0 + 1 from rfl, compressBlocks_succ, compressBlocks_zero, List.take_of_length_le hx.le,
    List.drop_of_length_le hx.le]

theorem length_drain_rest (sbox : SBox) (h : Chain) (x : List Byte) :
    (drain sbox h x).2.length = x.length % 64 := by
  rw [drain, compressBlocks_rest, List.length_drop]
  omega

/-- The blocks of a stream do not depend on where it is cut: what the first part leaves over goes before the second. -/
theorem drain_append (sbox : SBox) (h : Chain) (x d : List Byte) :
    drain sbox h (x ++ d) = drain sbox (drain sbox h x).1 ((drain sbox h x).2 ++ d) := by
  have hlen : (x ++ d).length / 64 = x.length / 64 + ((drain sbox h x).2 ++ d).length / 64 := by
    rw [List.length_append, List.length_append, length_drain_rest]
    omega
  rw [drain, hlen, compressBlocks_add, compressBlocks_append sbox h d (Nat.mul_div_le x.length 64)]
  rfl

/-! ### The buffered bytes (10_state.md R29) -/

/-- The bytes of the buffer that belong to the stream, `BUF[0 .. BUF_LEN)`. -/
def Context.buffered (c : Context) : List Byte := tabulateFrom (entry c.buf) c.bufLen.val 0

@[simp] theorem length_buffered (c : Context) : c.buffered.length = c.bufLen.val := length_tabulateFrom _ _ _

theorem getD_buffered (c : Context) {j : Nat} (h : j < c.bufLen.val) : c.buffered.getD j 0 = entry c.buf j := by
  rw [Context.buffered, getD_tabulateFrom _ _ _ _ _ h, Nat.zero_add]

theorem buffered_of_empty {c : Context} (h : c.bufLen.val = 0) : c.buffered = [] :=
  List.eq_nil_of_length_eq_zero ((length_buffered c).trans h)

/-- Filling up the buffer appends to its first `n` bytes. -/
theorem tabulateFrom_fillFrom (buf : Block) {n : Nat} {d : List Byte} (h : n + d.length ≤ 64) :
    tabulateFrom (entry (fillFrom buf n d)) (n + d.length) 0 = tabulateFrom (entry buf) n 0 ++ d := by
  rw [tabulateFrom_add]
  congr 1
  · refine tabulateFrom_congr fun j _ hj => ?_
    rw [entry_fillFrom _ _ _ (by omega), if_neg (by omega)]
  · apply List.ext_getElem (length_tabulateFrom _ _ _)
    intro j _ hj
    rw [getElem_tabulateFrom, entry_fillFrom _ _ _ (by omega), if_pos (by omega), show 0 + n + j - n = j by omega,
      List.getD_eq_getElem _ _ hj]

/-- A buffer filled to the end holds one block of the stream. -/
theorem fillFrom_full (c : Context) {d : List Byte} (h : c.bufLen.val + d.length = 64) :
    fillFrom c.buf c.bufLen.val d = bytesVector 64 (c.buffered ++ d) := by
  refine ext_entry fun j hj => ?_
  rw [Context.buffered, ← tabulateFrom_fillFrom c.buf h.le, h, entry_bytesVector 64 _ hj,
    getD_tabulateFrom _ _ _ _ _ hj, Nat.zero_add]

/-! ### `stream_update` (43_stream.md R171) -/

/-- How far the data has been absorbed: the chaining state, and the bytes that wait for a whole block. -/
def Context.progress (c : Context) : Chain × List Byte := (c.h, c.buffered)

theorem absorbBlocks_progress (c : Context) (d : List Byte) : (c.absorbBlocks d).progress = drain c.sbox c.h d := by
  have hlen := length_drain_rest c.sbox c.h d
  have hlt : (drain c.sbox c.h d).2.length < 64 := hlen ▸ Nat.mod_lt _ (by decide)
  have hfill := tabulateFrom_fillFrom c.buf (n := 0) (d := (drain c.sbox c.h d).2) (by omega)
  rw [Nat.zero_add] at hfill
  refine Prod.ext rfl ?_
  show tabulateFrom (entry (fillFrom c.buf 0 (drain c.sbox c.h d).2)) ((drain c.sbox c.h d).2.length % 64) 0 = _
  rw [Nat.mod_eq_of_lt hlt, hfill]
  rfl

/-- Steps 2 to 4 compress the whole blocks of the buffered bytes followed by the data. -/
theorem absorbData_progress (c : Context) (d : List Byte) :
    (c.absorbData d).progress = drain c.sbox c.h (c.buffered ++ d) := by
  unfold Context.absorbData
  split_ifs with hpos hlt
  · -- Step 2, the data does not complete the block.
    rw [drain_of_lt _ _ (by rwa [List.length_append, length_buffered])]
    exact Prod.ext rfl (tabulateFrom_fillFrom c.buf hlt.le)
  · -- Step 2, the buffer is topped up to a whole block; the rest of the data follows it.
    have hd : c.bufLen.val + (d.take (64 - c.bufLen.val)).length = 64 := by
      rw [List.length_take]
      omega
    have hblock := drain_block c.sbox c.h (x := c.buffered ++ d.take (64 - c.bufLen.val))
      (by rw [List.length_append, length_buffered, hd])
    conv_rhs => rw [← List.take_append_drop (64 - c.bufLen.val) d, ← List.append_assoc, drain_append, hblock]
    rw [absorbBlocks_progress, fillFrom_full c hd, List.nil_append]
  · -- Steps 3 and 4, the buffer is empty.
    rw [absorbBlocks_progress, buffered_of_empty (Nat.eq_zero_of_not_pos hpos), List.nil_append]

theorem streamUpdate_progress (c : Context) (d : List Byte) :
    (c.streamUpdate d).progress = drain c.sbox c.h (c.buffered ++ d) := absorbData_progress _ d

theorem streamUpdate_h (c : Context) (d : List Byte) :
    (c.streamUpdate d).h = (drain c.sbox c.h (c.buffered ++ d)).1 :=
  congrArg Prod.fst (streamUpdate_progress c d)

theorem streamUpdate_buffered (c : Context) (d : List Byte) :
    (c.streamUpdate d).buffered = (drain c.sbox c.h (c.buffered ++ d)).2 :=
  congrArg Prod.snd (streamUpdate_progress c d)

/-! ### Contexts of the same stream -/

/-- The contexts differ at most in the bytes of `BUF` at `BUF_LEN` and above, which no command reads
(43_stream.md R170). -/
structure Context.SameStream (c c' : Context) : Prop where
  progress : c.progress = c'.progress
  sbox     : c.sbox = c'.sbox
  totalLen : c.totalLen = c'.totalLen

theorem sameStream_streamInit (c c' : Context) (key : List Byte) : (c.streamInit key).SameStream (c'.streamInit key) :=
  ⟨rfl, rfl, rfl⟩

theorem sameStream_streamUpdate {c c' : Context} (h : c.SameStream c') (d : List Byte) :
    (c.streamUpdate d).SameStream (c'.streamUpdate d) := by
  obtain ⟨hp, hs, ht⟩ := h
  obtain ⟨hh, hb⟩ := Prod.mk.inj hp
  refine ⟨?_, ?_, ?_⟩
  · rw [streamUpdate_progress, streamUpdate_progress, hs, hh, hb]
  · rw [streamUpdate_sbox, streamUpdate_sbox, hs]
  · rw [streamUpdate_totalLen, streamUpdate_totalLen, ht]

/-- An update with no bytes changes nothing of the stream (43_stream.md R171). -/
theorem sameStream_streamUpdate_nil (c : Context) : (c.streamUpdate []).SameStream c := by
  refine ⟨?_, streamUpdate_sbox c [], ?_⟩
  · rw [streamUpdate_progress, List.append_nil, drain_of_lt _ _ (by simp)]
    rfl
  · simp

/-- Two updates are one with the joined data (43_stream.md R172). -/
theorem sameStream_streamUpdate_append (c : Context) (d e : List Byte) :
    ((c.streamUpdate d).streamUpdate e).SameStream (c.streamUpdate (d ++ e)) := by
  refine ⟨?_, ?_, ?_⟩
  · rw [streamUpdate_progress, streamUpdate_progress, streamUpdate_sbox, streamUpdate_h, streamUpdate_buffered,
      ← drain_append, List.append_assoc]
  · simp only [streamUpdate_sbox]
  · simp only [streamUpdate_totalLen, List.length_append, BitVec.ofNat_add, BitVec.add_assoc]

theorem Context.SameStream.trans {a b c : Context} (h : a.SameStream b) (h' : b.SameStream c) : a.SameStream c :=
  ⟨h.progress.trans h'.progress, h.sbox.trans h'.sbox, h.totalLen.trans h'.totalLen⟩

theorem Context.SameStream.symm {a b : Context} (h : a.SameStream b) : b.SameStream a :=
  ⟨h.progress.symm, h.sbox.symm, h.totalLen.symm⟩

/-- Any number of updates is one with all of the data. -/
theorem sameStream_foldl_streamUpdate (pieces : List (List Byte)) (c : Context) :
    (pieces.foldl Context.streamUpdate c).SameStream (c.streamUpdate pieces.flatten) := by
  induction pieces generalizing c with
  | nil => exact (sameStream_streamUpdate_nil c).symm
  | cons d pieces ih => exact (ih (c.streamUpdate d)).trans (sameStream_streamUpdate_append c d pieces.flatten)

/-! ### The digest (43_stream.md R173) -/

/-- The padding of steps 1 and 2 is the buffered bytes, then `0x80`, then zeros. -/
theorem padBlock_eq_bytesVector (c : Context) :
    padBlock c.buf c.bufLen.val = bytesVector 64 (c.buffered ++ [0x80]) := by
  refine ext_entry fun j hj => ?_
  rw [entry_padBlock _ _ hj, entry_bytesVector 64 _ hj]
  split_ifs with hlt heq
  · rw [List.getD_append _ _ _ _ (by rwa [length_buffered]), getD_buffered c hlt]
  · rw [List.getD_append_right _ _ _ _ (by rw [length_buffered, heq]), length_buffered, heq, Nat.sub_self]
    rfl
  · rw [List.getD_eq_default _ _ (by rw [List.length_append, length_buffered, List.length_singleton]; omega)]

/-- The digest is a function of the stream: it reads no byte of `BUF` at `BUF_LEN` and above. -/
theorem digest_of_sameStream {c c' : Context} (h : c.SameStream c') : c.digest = c'.digest := by
  obtain ⟨hp, hs, ht⟩ := h
  obtain ⟨hh, hb⟩ := Prod.mk.inj hp
  have hn : c.bufLen.val = c'.bufLen.val := by rw [← length_buffered c, hb, length_buffered]
  simp only [Context.digest, Context.finalChain, padBlock_eq_bytesVector]
  rw [hh, hs, ht, hb, hn]

end Sys2Proof.Machine
end

section
/-! The hash commands (43_stream.md): streams of commands against the one-shot hash, and `QV_INIT` with the four sponge
commands that its derivation stands for. -/

namespace Sys2Proof.Machine

/-! ### Commands that have completed with `OK` -/

/-- A command that has completed with `OK` has passed its checks, and its operands were admitted
(60_exceptions.md R206). -/
theorem exec_ok_cases {i : Instr} {s t : State} (h : exec i s = .next t) (hok : t.result = 0) :
    s.Accepts i ∧ s.Admits i ∧ t = (effect i s).complete .ok := by
  obtain ⟨_, rfl⟩ | ⟨_, _, rfl⟩ | hdone := exec_next_cases h
  · exact absurd hok (by rw [complete_result]; decide)
  · exact absurd hok (by rw [complete_result]; decide)
  · exact hdone

/-- An admitted operand ends within the address space; an empty one does so at any address (20_memory.md R63). -/
theorem output_fits {i : Instr} {s : State} (h : s.Admits i) {a : Addr} {n : Nat}
    (ho : Operand.output a n ∈ footprint i s.latch.operands) : a.toNat + n ≤ 2 ^ 64 := by
  obtain rfl | hn := Nat.eq_zero_or_pos n
  · exact a.isLt.le
  · exact range_fits_of_not_stuck h.1 _ ho hn

/-- Bytes stored at an admitted output operand are read back. -/
theorem readBytes_output {i : Instr} {s : State} (hw : s.mem.wf = true) (h : s.Admits i) {a : Addr} {n : Nat}
    (ho : Operand.output a n ∈ footprint i s.latch.operands) {vs : List Byte} (hl : vs.length = n) :
    (s.mem.writeBytes a.toNat vs).readBytes a.toNat n = vs := by
  subst hl
  exact Memory.readBytes_writeBytes s.mem a.toNat vs hw (output_fits h ho)

/-! ### Streams of commands (43_stream.md R179) -/

theorem effect_qvInit (s : State) : effect .qvInit s =
    s.streamInit (s.readBytes s.latch.operands.keyAddr s.latch.operands.keyLen.toNat) := rfl

theorem effect_qvUpdate (s : State) : effect .qvUpdate s =
    s.streamUpdate (s.readBytes s.latch.operands.srcAddr s.latch.operands.srcLen.toNat) := rfl

theorem effect_qvFinal (s : State) : effect .qvFinal s = s.streamFinal s.latch.operands.dstAddr := rfl

theorem effect_oneShot {i : Instr} (hi : i = .qvHash ∨ i = .vortexHash) (s : State) : effect i s =
    ((s.streamInit (s.readBytes s.latch.operands.keyAddr s.latch.operands.keyLen.toNat)).streamUpdate
      (s.readBytes s.latch.operands.srcAddr s.latch.operands.srcLen.toNat)).streamFinal s.latch.operands.dstAddr := by
  obtain rfl | rfl := hi <;> rfl

/-- The updates of a stream act on the context as the pieces in turn. -/
theorem streamsTo_ctx {pieces : List (List Byte)} {s t : State} (h : s.StreamsTo pieces t) :
    t.ctx = pieces.foldl Context.streamUpdate s.ctx := by
  induction pieces generalizing s with
  | nil => exact h
  | cons p ps ih =>
    obtain ⟨u, v, hctx, rfl, hexec, hok, hrest⟩ := h
    obtain ⟨_, _, rfl⟩ := exec_ok_cases hexec hok
    rw [ih hrest, complete_ctx, effect_qvUpdate, streamUpdate_ctx, hctx, List.foldl_cons]
    rfl

/-- `QV_FINAL` writes the digest of the context (43_stream.md R176). -/
theorem readBytes_qvFinal {s t : State} (hw : s.mem.wf = true) (h : exec .qvFinal s = .next t) (hok : t.result = 0) :
    t.mem.readBytes s.latch.operands.dstAddr.toNat 32 = s.ctx.digest := by
  obtain ⟨_, hadm, rfl⟩ := exec_ok_cases h hok
  rw [complete_mem, effect_qvFinal, streamFinal_mem,
    readBytes_output hw hadm (by simp [footprint]) (length_digest _)]

/-- A one-shot hash writes the digest of init and one update (43_stream.md R177, R178). -/
theorem readBytes_oneShot {i : Instr} (hi : i = .qvHash ∨ i = .vortexHash) {s t : State} (hw : s.mem.wf = true)
    (h : exec i s = .next t) (hok : t.result = 0) :
    t.mem.readBytes s.latch.operands.dstAddr.toNat 32 =
      ((s.ctx.streamInit (s.mem.readBytes s.latch.operands.keyAddr.toNat s.latch.operands.keyLen.toNat)).streamUpdate
        (s.mem.readBytes s.latch.operands.srcAddr.toNat s.latch.operands.srcLen.toNat)).digest := by
  obtain ⟨_, hadm, rfl⟩ := exec_ok_cases h hok
  have ho : Operand.output s.latch.operands.dstAddr 32 ∈ footprint i s.latch.operands := by
    obtain rfl | rfl := hi <;> simp [footprint]
  rw [complete_mem, effect_oneShot hi, streamFinal_mem, streamUpdate_mem, streamInit_mem,
    readBytes_output hw hadm ho (length_digest _)]
  rfl

/-- Settles O60: both digests are functions of the stream, and the updates of the pieces give the same stream as one
update with all of the data. -/
theorem streamingEquivalence : Obligations.StreamingEquivalence := by
  intro s0 s1 s2 s3 r r' pieces i hinit hok1 hstream hw2 hfinal hok3 hi hwr hhash hokr hkey hdata
  obtain ⟨_, _, rfl⟩ := exec_ok_cases hinit hok1
  rw [readBytes_qvFinal hw2 hfinal hok3, readBytes_oneShot hi hwr hhash hokr, hkey, hdata, streamsTo_ctx hstream,
    complete_ctx, effect_qvInit, streamInit_ctx]
  exact digest_of_sameStream ((sameStream_foldl_streamUpdate pieces _).trans
    (sameStream_streamUpdate (sameStream_streamInit s0.ctx r.ctx _) pieces.flatten))

/-! ### `QV_INIT` (43_stream.md R170, R174) -/

/-- The derived table byte by byte, the default key in place of an empty one (42_sbox_compress.md R140). -/
theorem toList_deriveSbox (key : List Byte) :
    (deriveSbox key).toList =
      shake128 (shake128 (if key.length = 0 then List.replicate 32 0xCC else key) 32) 256 := by
  have hseed : seedWith Config.defaultSeedMode key =
      shake128 (if key.length = 0 then List.replicate 32 0xCC else key) 32 := by
    cases key with
    | nil => rfl
    | cons b key => simp [seedWith]
  rw [deriveSbox, deriveSboxWith, hseed, toList_bytesVector 256 _ (length_shake128 _ 256)]

theorem effect_spongeAbsorb (s : State) : effect .spongeAbsorb s =
    { s with sponge := s.sponge.absorb (s.readBytes s.latch.operands.srcAddr s.latch.operands.srcLen.toNat) } := rfl

/-- `SPONGE_SQUEEZE` writes the bytes that its sponge squeezes (41_sponge.md R130). -/
theorem readBytes_spongeSqueeze {s t : State} (hw : s.mem.wf = true) (h : exec .spongeSqueeze s = .next t)
    (hok : t.result = 0) :
    t.mem.readBytes s.latch.operands.dstAddr.toNat s.latch.operands.dstLen.toNat =
      (Sponge.squeeze s.latch.operands.dstLen.toNat s.sponge).1 := by
  obtain ⟨_, hadm, rfl⟩ := exec_ok_cases h hok
  exact readBytes_output hw hadm (List.mem_singleton.2 rfl) (length_squeeze _ _)

/-- The S-box that `QV_INIT` derives from the key in host memory (43_stream.md R170). -/
theorem toList_sbox_effect_qvInit (s : State) :
    (effect .qvInit s).ctx.sbox.toList =
      shake128 (shake128 (if s.latch.operands.keyLen = 0 then List.replicate 32 0xCC
        else s.mem.readBytes s.latch.operands.keyAddr.toNat s.latch.operands.keyLen.toNat) 32) 256 := by
  have hlen : (s.readBytes s.latch.operands.keyAddr s.latch.operands.keyLen.toNat).length = 0 ↔
      s.latch.operands.keyLen = 0 := by
    rw [State.readBytes, Memory.length_readBytes]
    exact BitVec.toNat_inj (y := 0)
  rw [effect_qvInit, streamInit_ctx]
  exact (toList_deriveSbox _).trans (by simp only [hlen]; rfl)

/-- Settles O51: `QV_INIT` by its effect; the four sponge commands by following the sponge through them. -/
theorem qvInitStartsAStream : Obligations.QvInitStartsAStream := by
  refine ⟨fun s hacc hadm => ?init, fun s0 s1 s2 s3 t0 t1 t2 t3 h0 hs1 h1 hok1 hs2 h2 hs3 hw h3 hok3 => ?sponge⟩
  case init =>
    exact ⟨_, exec_of_accepts hacc hadm, finishes_effect .qvInit s .ok, rfl, toList_sbox_effect_qvInit s, rfl, rfl,
      rfl, sponge_init_isFresh, fun _ => rfl⟩
  case sponge =>
    rw [exec_spongeInit] at h0
    injection h0 with h0
    obtain ⟨_, _, rfl⟩ := exec_ok_cases h1 hok1
    have e1 : s1.sponge = Sponge.init := by rw [hs1, ← h0, complete_sponge, effect_spongeInit]
    have e2 : s2.sponge = Sponge.init.absorb
        (s1.readBytes s1.latch.operands.srcAddr s1.latch.operands.srcLen.toNat) := by
      rw [hs2, complete_sponge, effect_spongeAbsorb, e1]
    rw [exec_spongeFinal (by rw [e2, absorb_phase]; rfl)] at h2
    injection h2 with h2
    rw [readBytes_spongeSqueeze hw h3 hok3, hs3, ← h2, complete_sponge, effect_spongeFinal, e2]
    rfl

end Sys2Proof.Machine
end

section
/-! Rejected commands (60_exceptions.md R202 to R207): under which conditions a command completes with `E_NULL` or
`E_PHASE`, and that a rejection is a completion and nothing else. -/

namespace Sys2Proof.Machine

/-! ### The checks as conditions on the operands and the phase (60_exceptions.md R202, R204) -/

theorem nullSpan_iff (a : Addr) (n : Word) : nullSpan a n = true ↔ a = 0 ∧ n ≠ 0 := by
  rw [nullSpan, Bool.and_eq_true, beq_iff_eq, bne_iff_ne]

/-! ### The code a command completes with (60_exceptions.md R206) -/

theorem exec_of_nullFault {i : Instr} {s : State} (hn : nullFault i s.latch.operands = true) :
    exec i s = .next (s.complete .eNull) := by
  rw [exec_eq, if_pos hn]

theorem exec_of_phaseFault {i : Instr} {s : State} (hn : nullFault i s.latch.operands = false)
    (hp : phaseFault i s.sponge.phase = true) : exec i s = .next (s.complete .ePhase) := by
  rw [exec_eq, if_neg (by simp [hn]), if_pos hp]

theorem exec_eNull_iff {i : Instr} {s t : State} :
    (exec i s = .next t ∧ t.result = ResultCode.eNull.bits) ↔
      nullFault i s.latch.operands = true ∧ t = s.complete .eNull := by
  constructor
  · rintro ⟨h, hcode⟩
    obtain hnull | ⟨_, _, rfl⟩ | ⟨_, _, rfl⟩ := exec_next_cases h
    · exact hnull
    · exact absurd hcode (by rw [complete_result]; decide)
    · exact absurd hcode (by rw [complete_result]; decide)
  · rintro ⟨hn, rfl⟩
    exact ⟨exec_of_nullFault hn, rfl⟩

theorem exec_ePhase_iff {i : Instr} {s t : State} :
    (exec i s = .next t ∧ t.result = ResultCode.ePhase.bits) ↔
      (nullFault i s.latch.operands = false ∧ phaseFault i s.sponge.phase = true) ∧ t = s.complete .ePhase := by
  constructor
  · rintro ⟨h, hcode⟩
    obtain ⟨_, rfl⟩ | ⟨hn, hp, ht⟩ | ⟨_, _, rfl⟩ := exec_next_cases h
    · exact absurd hcode (by rw [complete_result]; decide)
    · exact ⟨⟨hn, hp⟩, ht⟩
    · exact absurd hcode (by rw [complete_result]; decide)
  · rintro ⟨⟨hn, hp⟩, rfl⟩
    exact ⟨exec_of_phaseFault hn hp, rfl⟩

/-- Settles O12: the code is `E_NULL` exactly when the null check fails, and the check of each command is its
condition in the table of R202. -/
theorem nullOperandRejects : Obligations.NullOperandRejects := by
  refine fun i s => ⟨?condition, fun t h hcode => (exec_eNull_iff.1 ⟨h, hcode⟩).2⟩
  case condition =>
    have hnull : (∃ t, exec i s = .next t ∧ t.result = ResultCode.eNull.bits) ↔
        nullFault i s.latch.operands = true := by
      simp only [exec_eNull_iff, exists_and_left, exists_eq, and_true]
    refine hnull.trans ?_
    cases i <;> simp only [nullFault, nullSpan_iff, Bool.or_eq_true, beq_iff_eq, or_assoc, Bool.false_eq_true]

/-- Settles O13: the code is `E_PHASE` exactly when the null check passes and the phase check fails, and only three
sponge commands have a phase check. -/
theorem wrongPhaseRejects : Obligations.WrongPhaseRejects := by
  refine fun i s => ⟨?condition, fun t h hcode => (exec_ePhase_iff.1 ⟨h, hcode⟩).2⟩
  case condition =>
    have hphase : (∃ t, exec i s = .next t ∧ t.result = ResultCode.ePhase.bits) ↔
        nullFault i s.latch.operands = false ∧ phaseFault i s.sponge.phase = true := by
      simp only [exec_ePhase_iff, exists_and_left, exists_eq, and_true]
    refine hphase.trans (and_congr_right' ?_)
    cases i <;> simp only [phaseFault, beq_iff_eq, Bool.false_eq_true]

/-! ### What a rejection changes (60_exceptions.md R207) -/

/-- What `executeLatched` can do, said once (30_encoding.md R83, 60_exceptions.md R203). -/
theorem executeLatched_next_cases {s t : State} (h : executeLatched s = .next t) :
    ((∃ e, decodeWord s.latch.op = .error e) ∧ t = s.complete .eIllegal) ∨
      ∃ i, decodeWord s.latch.op = .ok i ∧ exec i s = .next t := by
  cases hd : decodeWord s.latch.op with
  | error e =>
    rw [executeLatched_of_decode_error hd] at h
    injection h with h
    exact .inl ⟨⟨e, rfl⟩, h.symm⟩
  | ok i =>
    rw [executeLatched, hd] at h
    exact .inr ⟨i, rfl, h⟩

/-- A completion with a non-zero code is `State.complete` on the state before, with one of three codes
(60_exceptions.md R201, R205). -/
theorem executeLatched_rejects {s t : State} (h : executeLatched s = .next t) (hcode : t.result ≠ 0) :
    ∃ c, (c = .eNull ∨ c = .eIllegal ∨ c = .ePhase) ∧ t = s.complete c := by
  obtain ⟨_, ht⟩ | ⟨i, _, hexec⟩ := executeLatched_next_cases h
  · exact ⟨.eIllegal, .inr (.inl rfl), ht⟩
  · obtain ⟨_, ht⟩ | ⟨_, _, ht⟩ | ⟨_, _, rfl⟩ := exec_next_cases hexec
    · exact ⟨.eNull, .inl rfl, ht⟩
    · exact ⟨.ePhase, .inr (.inr rfl), ht⟩
    · exact absurd (complete_result _ .ok) hcode

/-- Settles O14: `State.complete` leaves memory, the sponge and the context as they were. -/
theorem rejectedCommandChangesNothing : Obligations.RejectedCommandChangesNothing := by
  intro s t h hcode
  obtain ⟨c, hc, rfl⟩ := executeLatched_rejects h hcode
  refine ⟨complete_mem s c, complete_sponge s c, complete_ctx s c, ?_⟩
  obtain rfl | rfl | rfl := hc
  · exact .inl (finishes_complete s .eNull)
  · exact .inr (.inl (finishes_complete s .eIllegal))
  · exact .inr (.inr (finishes_complete s .ePhase))

end Sys2Proof.Machine
end

section
/-! The reset input as a step (70_reset_and_hazards.md R230): what a reset turn does, and the block it leaves. -/

namespace Sys2Proof.Machine

/-- A reset turn always answers a next state, whatever the engine and the host are doing. -/
theorem step_of_reset_turn {s : State} {ts : List Turn} (h : s.turns = .reset :: ts) :
    step s = .next (applyReset { s with turns := ts }) := by
  rw [step, takeTurn, h]

/-! ### The registers after `State.resetBlock` (10_state.md R50) -/

@[simp] theorem resetBlock_sponge (s : State) : s.resetBlock.sponge = Sponge.reset := rfl

@[simp] theorem resetBlock_ctx (s : State) : s.resetBlock.ctx = Context.reset := rfl

@[simp] theorem resetBlock_status (s : State) : s.resetBlock.status = Status.reset := rfl

@[simp] theorem resetBlock_result (s : State) : s.resetBlock.result = 0 := rfl

@[simp] theorem resetBlock_operands (s : State) : s.resetBlock.operands = Operands.reset := rfl

@[simp] theorem resetBlock_legacy0 (s : State) : s.resetBlock.legacy0 = 0 := rfl

@[simp] theorem resetBlock_legacy1 (s : State) : s.resetBlock.legacy1 = 0 := rfl

@[simp] theorem resetBlock_latch (s : State) : s.resetBlock.latch = Latch.reset := rfl

/-- Settles O9: a reset turn ends with `State.resetBlock`, which sets each register to its reset value on any state,
so what abandoning the running command did before it does not matter. -/
theorem resetClearsTheBlock : Obligations.ResetClearsTheBlock := by
  intro s ts h
  let u : State := State.abandonCommand { s with turns := ts }
  have hsponge : u.resetBlock.sponge.IsFresh := resetBlock_sponge u ▸ sponge_reset_isFresh
  have hctx : u.resetBlock.ctx.IsZero := resetBlock_ctx u ▸ context_reset_isZero
  exact ⟨u.resetBlock, step_of_reset_turn h, hsponge, hctx, resetBlock_status u, resetBlock_result u,
    resetBlock_operands u, resetBlock_legacy0 u, resetBlock_legacy1 u, resetBlock_latch u⟩

end Sys2Proof.Machine
end

section
/-! The decoder as the inverse of the encoder (30_encoding.md R82, R84). -/

namespace Sys2Proof

/-- Every command decodes from its match word (30_encoding.md R82). -/
theorem decodeWord_encode (i : Instr) : decodeWord (encode i) = .ok i := by
  cases i <;> rfl

/-- A command word is its two fields, `MBZ` above `OPCODE` (30_encoding.md R80). -/
theorem mbzField_append_opcodeField (w : Word32) : mbzField w ++ opcodeField w = w := by
  apply BitVec.eq_of_getLsbD_eq
  intro j hj
  rw [BitVec.getLsbD_append, mbzField, opcodeField, BitVec.getLsbD_extractLsb', BitVec.getLsbD_extractLsb']
  split_ifs with hlt
  · simp [hlt]
  · simp [show j - 8 < 24 by omega, show 8 + (j - 8) = j by omega]

/-- A row of the opcode map is the `OPCODE` field of its command's match word, whose `MBZ` field is zero. -/
theorem encode_of_mem_opcodeMap : ∀ row ∈ opcodeMap, encode row.2 = (0 : BitVec 24) ++ row.1 := by
  decide

/-- A word that decodes has a zero `MBZ` field and the opcode of a row of the map. -/
theorem decodeWord_ok_cases {w : Word32} {i : Instr} (h : decodeWord w = .ok i) :
    mbzField w = 0 ∧ (opcodeField w, i) ∈ opcodeMap := by
  unfold decodeWord at h
  split_ifs at h with hm
  split at h
  · rename_i row hrow
    obtain rfl : row.2 = i := by injection h
    have hop : row.1 = opcodeField w := by simpa using List.find?_some hrow
    exact ⟨hm, hop ▸ List.mem_of_find?_eq_some hrow⟩
  · cases h

/-- Settles O1: a word that decodes is its two fields, and so is the match word of the command it decodes to. -/
theorem decodeInvertsEncode : Obligations.DecodeInvertsEncode := by
  refine fun w i => ⟨fun h => ?_, fun h => h ▸ decodeWord_encode i⟩
  obtain ⟨hm, hrow⟩ := decodeWord_ok_cases h
  rw [← mbzField_append_opcodeField w, hm, encode_of_mem_opcodeMap _ hrow]

/-- Settles O2: each word is the match word of its command. -/
theorem matchWordsDecode : Obligations.MatchWordsDecode :=
  ⟨decodeWord_encode .qvInit, decodeWord_encode .qvUpdate, decodeWord_encode .qvFinal, decodeWord_encode .qvHash,
    decodeWord_encode .vortexHash, decodeWord_encode .keccakF, decodeWord_encode .spongeInit,
    decodeWord_encode .spongeAbsorb, decodeWord_encode .spongeFinal, decodeWord_encode .spongeSqueeze,
    decodeWord_encode .lanesLoad, decodeWord_encode .qvCompress, decodeWord_encode .sboxLoad,
    decodeWord_encode .hstateLoad⟩

end Sys2Proof
end

section
/-! Operand ranges (20_memory.md R62, R63, R69): when a command completes, when the engine is stuck, when a device
makes the model refuse, and that host address 0 is in no range. -/

namespace Sys2Proof.Machine

/-! ### Which operands are barred, and which meet a device -/

theorem overlaps_iff (r q : Range) : r.overlaps q = true ↔ ∃ c, r.Has c ∧ q.Has c := by
  simp only [Range.overlaps, Range.Has, decide_eq_true_eq]
  constructor
  · intro h
    exact ⟨max r.base q.base, by omega⟩
  · rintro ⟨c, h⟩
    omega

theorem bars_iff (p : Platform) (o : Operand) :
    p.bars o = true ↔ ∃ g ∈ p.regions, ∃ c, g.kind.bars o.access = true ∧ g.span.Has c ∧ o.range.Has c := by
  simp only [Platform.bars, List.any_eq_true, Bool.and_eq_true, overlaps_iff, exists_and_left]

theorem hasDevice_iff (p : Platform) (o : Operand) :
    p.hasDevice o = true ↔ ∃ g ∈ p.regions, ∃ c, g.kind = .device ∧ g.span.Has c ∧ o.range.Has c := by
  simp only [Platform.hasDevice, List.any_eq_true, Bool.and_eq_true, beq_iff_eq, overlaps_iff, exists_and_left]

theorem wraps_iff (r : Range) : r.wraps = true ↔ 0 < r.len ∧ 2 ^ 64 < r.base + r.len := by
  simp only [Range.wraps, decide_eq_true_eq]

theorem stuckOn_of_wraps {p : Platform} {ops : List Operand} {o : Operand} (ho : o ∈ ops)
    (h : o.range.wraps = true) : p.stuckOn ops = some .rangeWraps := by
  rw [Platform.stuckOn, if_pos (List.any_eq_true.2 ⟨o, ho, h⟩)]

theorem stuckOn_of_bars {p : Platform} {ops : List Operand} (hfit : ∀ o ∈ ops, o.range.wraps = false) {o : Operand}
    (ho : o ∈ ops) (h : p.bars o = true) : p.stuckOn ops = some .notAdmitted := by
  have hwrap : ¬ (ops.any fun o => o.range.wraps) = true := by simpa using hfit
  rw [Platform.stuckOn, if_neg hwrap, if_pos (List.any_eq_true.2 ⟨o, ho, h⟩)]

/-! ### A command after its checks (60_exceptions.md R206) -/

section accepted
variable {i : Instr} {s : State} (h : s.Accepts i)
include h

theorem exec_eq_access : exec i s = s.access (footprint i s.latch.operands) (.next ((effect i s).complete .ok)) := by
  obtain ⟨hn, hp⟩ := h
  rw [exec_eq, if_neg (by simp [hn]), if_neg (by simp [hp])]

theorem exec_of_stuck {why : StuckReason} (hs : s.platform.stuckOn (footprint i s.latch.operands) = some why) :
    exec i s = .fault (.engineStuck why) := by
  rw [exec_eq_access h, State.access, hs]

theorem exec_of_device (hs : s.platform.stuckOn (footprint i s.latch.operands) = none) {o : Operand}
    (ho : o ∈ footprint i s.latch.operands) (hd : s.platform.hasDevice o = true) :
    exec i s = .refused .deviceOperand := by
  rw [exec_eq_access h, State.access, hs]
  exact if_pos (List.any_eq_true.2 ⟨o, ho, hd⟩)

end accepted

/-- Settles O15: such a command is its effect and completion, and no effect reaches what completion leaves alone. -/
theorem acceptedCommandCompletes : Obligations.AcceptedCommandCompletes :=
  fun i s hacc hadm => ⟨_, exec_of_accepts hacc hadm, finishes_effect i s .ok⟩

/-- Settles O16: a range that wraps is found first, and only then a barred byte. -/
theorem unadmittedRangeSticksTheEngine : Obligations.UnadmittedRangeSticksTheEngine := by
  refine fun i s hacc => ⟨?wraps, ?barred⟩
  case wraps =>
    rintro ⟨o, ho, hwraps⟩
    exact exec_of_stuck hacc (stuckOn_of_wraps ho ((wraps_iff o.range).2 hwraps))
  case barred =>
    rintro hfit ⟨o, ho, g, hg, c, hbars, hg1, hg2, ho1, ho2⟩
    refine exec_of_stuck hacc (stuckOn_of_bars (fun q hq => ?_) ho
      ((bars_iff _ o).2 ⟨g, hg, c, hbars, ⟨hg1, hg2⟩, ho1, ho2⟩))
    rw [Bool.eq_false_iff, ne_eq, wraps_iff]
    exact fun ⟨hlen, hwraps⟩ => absurd (hfit q hq hlen) (Nat.not_le.2 hwraps)

/-- Settles O17: with no range that wraps or is barred, a device byte is what stops the command. -/
theorem deviceOperandIsRefused : Obligations.DeviceOperandIsRefused := by
  rintro i s hacc hstuck ⟨o, ho, g, hg, c, hkind, hg1, hg2, ho1, ho2⟩
  exact exec_of_device hacc hstuck ho ((hasDevice_iff _ o).2 ⟨g, hg, c, hkind, ⟨hg1, hg2⟩, ho1, ho2⟩)

/-! ### What a command reads and writes (30_encoding.md R89) -/

/-- The bytes a command stores at `dst_addr`: none but for the commands with an output operand. -/
def outputBytes (i : Instr) (s : State) : List Byte :=
  let o := s.latch.operands
  match i with
  | .qvFinal => s.ctx.digest
  | .qvHash | .vortexHash => ((s.ctx.streamInit (s.readBytes o.keyAddr o.keyLen.toNat)).streamUpdate
      (s.readBytes o.srcAddr o.srcLen.toNat)).digest
  | .spongeSqueeze => (Sponge.squeeze o.dstLen.toNat s.sponge).1
  | _ => []

theorem effect_mem (i : Instr) (s : State) :
    (effect i s).mem = s.mem.writeBytes s.latch.operands.dstAddr.toNat (outputBytes i s) := by
  cases i <;> simp only [effect, outputBytes, streamFinal_mem, streamUpdate_mem, streamUpdate_ctx, streamInit_mem,
    streamInit_ctx, setLanes_mem, setH_mem, setSbox_mem, writeBytes_mem, Memory.writeBytes]

/-- The stored bytes, if any, fill the output operand. -/
theorem outputBytes_eq_nil_or_mem_footprint (i : Instr) (s : State) : outputBytes i s = [] ∨
    Operand.output s.latch.operands.dstAddr (outputBytes i s).length ∈ footprint i s.latch.operands := by
  cases i <;> simp [outputBytes, footprint]

/-- Memory `m` holds the bytes of `s` in every operand range of the command. -/
def SameOperandBytes (i : Instr) (s : State) (m : Memory) : Prop :=
  ∀ o ∈ footprint i s.latch.operands, ∀ c, o.range.Has c → m.read c = s.mem.read c

theorem read_of_sameOperandBytes {i : Instr} {s : State} {m : Memory} (h : SameOperandBytes i s m) {a : Addr}
    {n k : Nat} (ho : Operand.input a n ∈ footprint i s.latch.operands) (hk : k < n) :
    m.read (a.toNat + k) = s.mem.read (a.toNat + k) :=
  h _ ho _ ⟨Nat.le_add_right _ _, Nat.add_lt_add_left hk _⟩

theorem readBytes_of_sameOperandBytes {i : Instr} {s : State} {m : Memory} (h : SameOperandBytes i s m) {a : Addr}
    {n : Nat} (ho : Operand.input a n ∈ footprint i s.latch.operands) :
    State.readBytes { s with mem := m } a n = s.readBytes a n :=
  Memory.readBytes_congr fun _ hk => read_of_sameOperandBytes h ho hk

/-- A command depends on host memory only through its operand ranges. -/
theorem effect_of_sameOperandBytes {i : Instr} {s : State} {m : Memory} (h : SameOperandBytes i s m) :
    effect i { s with mem := m } =
      { effect i s with mem := m.writeBytes s.latch.operands.dstAddr.toNat (outputBytes i s) } := by
  cases i
  case qvInit | qvUpdate | spongeAbsorb =>
    simp only [effect, State.streamInit, State.streamUpdate, outputBytes, Memory.writeBytes]
    rw [readBytes_of_sameOperandBytes h (by simp [footprint])]
  case qvHash | vortexHash =>
    simp only [effect, State.streamFinal, State.streamInit, State.streamUpdate, State.writeBytes, outputBytes]
    rw [readBytes_of_sameOperandBytes h (by simp [footprint]), readBytes_of_sameOperandBytes h (by simp [footprint])]
  case lanesLoad =>
    have hread : ∀ k, k < 200 →
        m.read (s.latch.operands.srcAddr.toNat + k) = s.mem.read (s.latch.operands.srcAddr.toNat + k) :=
      fun k => read_of_sameOperandBytes h (by simp [footprint])
    have hlanes : lanesOfBytes (fun k => m.read (s.latch.operands.srcAddr.toNat + k)) =
        lanesOfBytes fun k => s.mem.read (s.latch.operands.srcAddr.toNat + k) :=
      tabulate_congr fun i hi => le64_congr fun j hj => hread _ (by omega)
    simp only [effect, State.setLanes, outputBytes, Memory.writeBytes, hlanes]
  case qvCompress =>
    have hblock : (tabulate 64 fun k => m.read (s.latch.operands.srcAddr.toNat + k)) =
        tabulate 64 fun k => s.mem.read (s.latch.operands.srcAddr.toNat + k) :=
      tabulate_congr fun k hk => read_of_sameOperandBytes h (by simp [footprint]) hk
    simp only [effect, State.setH, outputBytes, Memory.writeBytes, hblock]
  case sboxLoad =>
    have htable : (tabulate 256 fun k => m.read (s.latch.operands.srcAddr.toNat + k)) =
        tabulate 256 fun k => s.mem.read (s.latch.operands.srcAddr.toNat + k) :=
      tabulate_congr fun k hk => read_of_sameOperandBytes h (by simp [footprint]) hk
    simp only [effect, State.setSbox, outputBytes, Memory.writeBytes, htable]
  case hstateLoad =>
    have hread : ∀ k, k < 64 →
        m.read (s.latch.operands.srcAddr.toNat + k) = s.mem.read (s.latch.operands.srcAddr.toNat + k) :=
      fun k => read_of_sameOperandBytes h (by simp [footprint])
    have hwords : (tabulate 8 fun k => le64 fun j => m.read (s.latch.operands.srcAddr.toNat + 8 * k + j)) =
        tabulate 8 fun k => le64 fun j => s.mem.read (s.latch.operands.srcAddr.toNat + 8 * k + j) :=
      tabulate_congr fun k hk => le64_congr fun j hj => by
        rw [Nat.add_assoc]
        exact hread _ (by omega)
    simp only [effect, State.setH, outputBytes, Memory.writeBytes, hwords]
  case qvFinal | keccakF | spongeInit | spongeFinal | spongeSqueeze =>
    simp only [effect, State.streamFinal, State.setLanes, State.writeBytes, outputBytes, Memory.writeBytes]

/-! ### Host address 0 (20_memory.md R62) -/

/-- A command that passes its null check has no operand at address 0 but an empty one: either its address is not 0, or
its length is. -/
theorem not_has_zero_of_mem_footprint {i : Instr} {p : Operands} (hn : nullFault i p = false) :
    ∀ o ∈ footprint i p, ¬ o.range.Has 0 := by
  cases i <;> simp [nullFault, nullSpan, footprint, Operand.input, Operand.output, Range.ofAddr, Range.Has,
    ← BitVec.toNat_inj, Nat.pos_iff_ne_zero] at hn ⊢ <;> tauto

theorem read_write_zero_other {m : Memory} (v : Byte) {c : Nat} (hc : c ≠ 0) : (m.write 0 v).read c = m.read c :=
  Memory.read_write_other m 0 c v hc

/-- Storing the same bytes into two canonical memories leaves a byte alike if it was, or if it is stored. -/
theorem read_writeBytes_congr {m m' : Memory} {vs : List Byte} {a c : Nat} (hm : m.wf = true) (hm' : m'.wf = true)
    (ha : a + vs.length ≤ 2 ^ 64) (h : m.read c = m'.read c) :
    (m.writeBytes a vs).read c = (m'.writeBytes a vs).read c := by
  by_cases hc : c < a ∨ a + vs.length ≤ c
  · rw [Memory.read_writeBytes_outside vs m a c hc, Memory.read_writeBytes_outside vs m' a c hc, h]
  · obtain ⟨k, rfl⟩ : ∃ k, c = a + k := ⟨c - a, by omega⟩
    rw [Memory.read_writeBytes_inside vs m a k hm ha (by omega),
      Memory.read_writeBytes_inside vs m' a k hm' ha (by omega)]

/-- The output of an admitted command fits the address space and keeps clear of address 0. -/
theorem outputBytes_fit {i : Instr} {s : State} (hadm : s.Admits i) :
    s.latch.operands.dstAddr.toNat + (outputBytes i s).length ≤ 2 ^ 64 := by
  obtain hnil | ho := outputBytes_eq_nil_or_mem_footprint i s
  · rw [hnil]
    exact s.latch.operands.dstAddr.isLt.le
  · exact output_fits hadm ho

theorem outputBytes_avoid_zero {i : Instr} {s : State} (hacc : s.Accepts i) :
    0 < s.latch.operands.dstAddr.toNat ∨ s.latch.operands.dstAddr.toNat + (outputBytes i s).length ≤ 0 := by
  obtain hnil | ho := outputBytes_eq_nil_or_mem_footprint i s
  · rw [hnil, List.length_nil]
    exact Nat.eq_zero_or_pos _ |>.symm.imp_right Nat.le_of_eq
  · have := not_has_zero_of_mem_footprint hacc.1 _ ho
    simp only [Range.Has, Operand.output, Range.ofAddr] at this
    omega

/-- Settles O18: the operand ranges of a command that passes its checks do not hold address 0, and a command depends on
memory only through them and writes only in them. -/
theorem nullAddressIsNeverAccessed : Obligations.NullAddressIsNeverAccessed := by
  intro i s t v hw h
  have hv : (s.mem.write 0 v).read 0 = v := Memory.read_write_same s.mem 0 0 v hw
  obtain ⟨hn, rfl⟩ | ⟨hn, hp, rfl⟩ | ⟨hacc, hadm, rfl⟩ := exec_next_cases h
  · exact ⟨rfl, _, exec_of_nullFault hn, rfl, rfl, rfl, hv, fun c hc => read_write_zero_other v hc⟩
  · exact ⟨rfl, _, exec_of_phaseFault hn hp, rfl, rfl, rfl, hv, fun c hc => read_write_zero_other v hc⟩
  · have hsame : SameOperandBytes i s (s.mem.write 0 v) := fun o ho c hc =>
      read_write_zero_other v fun h0 => not_has_zero_of_mem_footprint hacc.1 o ho (h0 ▸ hc)
    have houtside := outputBytes_avoid_zero hacc
    refine ⟨?_, _, exec_of_accepts (s := { s with mem := s.mem.write 0 v }) hacc hadm, ?_⟩
    · rw [complete_mem, effect_mem, Memory.read_writeBytes_outside _ _ _ _ houtside]
    · rw [effect_of_sameOperandBytes hsame]
      refine ⟨rfl, rfl, rfl, ?_, fun c hc => ?_⟩
      · rw [complete_mem, Memory.read_writeBytes_outside _ _ _ _ houtside, hv]
      · rw [complete_mem, complete_mem, effect_mem]
        exact read_writeBytes_congr (Memory.wf_write v hw (by decide)) hw (outputBytes_fit hadm)
          (read_write_zero_other v hc)

/-! ### The phase (10_state.md R25) -/

/-- Settles O44: the commands that are not named leave the phase, and those named leave it at one value. -/
theorem phaseChangesOnlyOnInitAndFinal : Obligations.PhaseChangesOnlyOnInitAndFinal := by
  intro i s t h
  have same : t.sponge.phase = s.sponge.phase → (s.sponge.phase = .squeeze → t.sponge.phase = .absorb →
      i = .spongeInit ∨ i = .qvInit ∨ i = .qvHash ∨ i = .vortexHash) ∧
      (s.sponge.phase = .absorb → t.sponge.phase = .squeeze → i = .spongeFinal) := by
    intro ht
    rw [ht]
    exact ⟨fun h1 h2 => absurd (h1.symm.trans h2) (by decide), fun h1 h2 => absurd (h1.symm.trans h2) (by decide)⟩
  obtain ⟨_, rfl⟩ | ⟨_, _, rfl⟩ | ⟨_, _, rfl⟩ := exec_next_cases h
  · exact same rfl
  · exact same rfl
  · cases i
    case qvInit | qvHash | vortexHash | spongeInit => simp [effect, Sponge.init]
    case spongeFinal => simp [effect, Sponge.finalize]
    case spongeAbsorb => exact same (absorb_phase _ _)
    case spongeSqueeze => exact same (squeeze_phase _ _)
    all_goals exact same rfl

end Sys2Proof.Machine
end

section
/-! Writes to the register block (10_state.md R34 to R49): what each write can change, what is read after it, and that
the running command does not see it. -/

namespace Sys2Proof.Machine

/-! ### What a register write changes -/

/-- The host's own registers, `SRC_ADDR` to `LEGACY1`, with other values. -/
def State.setHostRegs (s : State) (o : Operands) (l0 l1 : Word32) : State :=
  { s with operands := o, legacy0 := l0, legacy1 := l1 }

@[simp] theorem writeReg_status (s : State) (w : Word32) : s.writeReg 0x004 w = s.writeStatus w := rfl

theorem writeStatus_eq (s : State) (w : Word32) : s.writeStatus w =
    { s with status := { s.status with overrun := if w.getLsbD 2 then false else s.status.overrun } } := by
  unfold State.writeStatus
  split_ifs <;> rfl

/-- A write above `STATUS` changes no register but the host's own. -/
theorem writeReg_eq_setHostRegs (s : State) {off : Nat} (h : 0x004 < off) (v : Word32) :
    s.writeReg off v =
      s.setHostRegs (s.writeReg off v).operands (s.writeReg off v).legacy0 (s.writeReg off v).legacy1 := by
  unfold State.writeReg
  split
  · omega
  · omega
  all_goals rfl

theorem writeReg_of_ignored (s : State) {off : Nat} (v : Word32) (h0 : off ≠ 0x000) (h4 : off ≠ 0x004)
    (h : off < 0x010 ∨ 0x044 < off) : s.writeReg off v = s := by
  unfold State.writeReg
  split <;> first | rfl | omega

/-- What a register write can do, said once. -/
theorem writeReg_cases (s : State) (off : Nat) (v : Word32) :
    (off = 0x000 ∧ s.writeReg off v = s.writeCmd v) ∨ (off = 0x004 ∧ s.writeReg off v = s.writeStatus v) ∨
      (off ≠ 0x000 ∧ ∃ o l0 l1, s.writeReg off v = s.setHostRegs o l0 l1) := by
  by_cases h0 : off = 0x000
  · exact .inl ⟨h0, h0 ▸ writeReg_cmd s v⟩
  by_cases h4 : off = 0x004
  · exact .inr (.inl ⟨h4, h4 ▸ writeReg_status s v⟩)
  by_cases habove : 0x004 < off
  · exact .inr (.inr ⟨h0, _, _, _, writeReg_eq_setHostRegs s habove v⟩)
  · exact .inr (.inr ⟨h0, s.operands, s.legacy0, s.legacy1, writeReg_of_ignored s v h0 h4 (.inl (by omega))⟩)

/-- Settles O20: `State.writeStatus` and the bits of `STATUS`. -/
theorem statusWordAndWriteOneToClear : Obligations.StatusWordAndWriteOneToClear := by
  refine ⟨writeStatus_eq, fun s => ?_⟩
  obtain ⟨hbusy, hdone, hoverrun, hrest⟩ := status_word_bits s.status
  exact ⟨s.status.word, readReg_below s (by decide), hbusy, hdone, hoverrun, hrest⟩

/-! ### What is read after a write (10_state.md R38, R39) -/

/-- A write to an operand or legacy register shows at its own offset and at no other. -/
theorem plainReg_writeReg (s : State) {off : Nat} (v : Word32) (h4 : off % 4 = 0) (h1 : 0x010 ≤ off)
    (h2 : off ≤ 0x044) (off' : Nat) : (s.writeReg off v).plainReg off' = if off' = off then v else s.plainReg off' := by
  obtain ⟨k, rfl⟩ : ∃ k, off = 0x010 + 4 * k := ⟨off / 4 - 4, by omega⟩
  have hk : k ≤ 13 := by omega
  clear h4 h1 h2
  unfold State.plainReg
  -- The fourteen registers written, against each row of the register map that is read: most rows show another
  -- register; what is left is the two halves of the one written, and the offsets that show none.
  interval_cases k <;> split <;> try rfl
  all_goals simp_all only [State.writeReg, State.setOperands, loHalf_setLoHalf, hiHalf_setLoHalf,
    loHalf_setHiHalf, hiHalf_setHiHalf, Nat.reduceEqDiff, Nat.reduceMul, Nat.reduceAdd, if_true, if_false, imp_false]

theorem readReg_setHostRegs (s : State) (o : Operands) (l0 l1 : Word32) {off : Nat}
    (h : (s.setHostRegs o l0 l1).plainReg off = s.plainReg off) :
    (s.setHostRegs o l0 l1).readReg off = s.readReg off := by
  rw [State.readReg, h]
  rfl

/-- Settles O21: the offsets by the register map, the rest by `plainReg_writeReg`; the engine's registers are not among
those written. -/
theorem operandHalvesAreIndependent : Obligations.OperandHalvesAreIndependent := by
  refine ⟨fun s => ?halves, fun s off off' v h4 h1 h2 => ⟨?same, fun hne => ?other⟩⟩
  case halves =>
    refine ⟨?_, ?_, ?_, ?_, ?_, ?_, ?_, ?_, ?_, ?_, ?_, ?_, ?_, ?_⟩
    all_goals exact readReg_below s (by decide)
  case same => rw [readReg_below _ (by omega), plainReg_writeReg s v h4 h1 h2, if_pos rfl]
  case other =>
    have hplain := plainReg_writeReg s v h4 h1 h2 off'
    rw [if_neg hne] at hplain
    rw [writeReg_eq_setHostRegs s (by omega)] at hplain ⊢
    exact readReg_setHostRegs s _ _ _ hplain

/-! ### Reserved and read-only offsets (10_state.md R34, R47) -/

/-- The reserved offsets of 10_state.md R34. -/
def ReservedOffset (off : Nat) : Prop :=
  off = 0x00C ∨ off = 0x048 ∨ off = 0x04C ∨ off = 0x058 ∨ off = 0x05C ∨ (0x070 ≤ off ∧ off ≤ 0x0FC) ∨
    (0x1C8 ≤ off ∧ off ≤ 0x1FC) ∨ (0x240 ≤ off ∧ off ≤ 0x2FC) ∨ (0x440 ≤ off ∧ off ≤ 0xFFC)

theorem engineReg_of_reserved (s : State) {off : Nat} (h : ReservedOffset off) : s.engineReg off = none := by
  unfold ReservedOffset at h
  unfold State.engineReg
  split_ifs <;> first | rfl | omega

theorem plainReg_of_reserved (s : State) {off : Nat} (h : ReservedOffset off) : s.plainReg off = 0 := by
  unfold ReservedOffset at h
  unfold State.plainReg
  split <;> first | rfl | omega

/-- Settles O22: neither function of the register block has a row for these offsets. -/
theorem reservedAndReadOnlyOffsets : Obligations.ReservedAndReadOnlyOffsets := by
  refine ⟨fun s off v => writeReg_of_ignored s v, fun s off _ (h : ReservedOffset off) => ?_⟩
  rw [readReg_of_plain (engineReg_of_reserved s h), plainReg_of_reserved s h]

/-! ### The running command does not see the host's registers (10_state.md R49) -/

theorem effect_setHostRegs (i : Instr) (s : State) (o : Operands) (l0 l1 : Word32) :
    effect i (s.setHostRegs o l0 l1) = (effect i s).setHostRegs o l0 l1 := by
  cases i <;> simp only [effect, State.setHostRegs, State.streamFinal, State.streamInit, State.streamUpdate,
    State.writeBytes, State.readBytes, State.setLanes, State.setH, State.setSbox]

/-- A register write above `STATUS` gives the same registers on states that hold the same. -/
theorem writeReg_eq_of_same_hostRegs {s t : State} {off : Nat} (h : 0x004 < off) (v : Word32)
    (ho : t.operands = s.operands) (h0 : t.legacy0 = s.legacy0) (h1 : t.legacy1 = s.legacy1) :
    t.writeReg off v =
      t.setHostRegs (s.writeReg off v).operands (s.writeReg off v).legacy0 (s.writeReg off v).legacy1 := by
  unfold State.writeReg
  split
  · omega
  · omega
  all_goals simp only [State.setHostRegs, State.setOperands, ← ho, ← h0, ← h1]

/-- A command that answers a next state has completed, and has left alone what completion does. -/
theorem exec_finishes {i : Instr} {s t : State} (h : exec i s = .next t) : ∃ c, s.Finishes t c := by
  obtain ⟨_, rfl⟩ | ⟨_, _, rfl⟩ | ⟨_, _, rfl⟩ := exec_next_cases h
  · exact ⟨_, finishes_complete s _⟩
  · exact ⟨_, finishes_complete s _⟩
  · exact ⟨_, finishes_effect i s _⟩

/-- Settles O26: the checks, the admission and the effect of a command read the latch, and completion leaves the
host's registers. -/
theorem latchedOperandsIsolateTheCommand : Obligations.LatchedOperandsIsolateTheCommand := by
  intro i s t off v h1 _ h
  obtain ⟨_, hfin⟩ := exec_finishes h
  rw [writeReg_eq_setHostRegs s (by omega),
    writeReg_eq_of_same_hostRegs (by omega) v hfin.operands hfin.legacy0 hfin.legacy1]
  generalize (s.writeReg off v).operands = o, (s.writeReg off v).legacy0 = l0, (s.writeReg off v).legacy1 = l1
  obtain ⟨hn, rfl⟩ | ⟨hn, hp, rfl⟩ | ⟨hacc, hadm, rfl⟩ := exec_next_cases h
  · exact exec_of_nullFault (s := s.setHostRegs o l0 l1) hn
  · exact exec_of_phaseFault (s := s.setHostRegs o l0 l1) hn hp
  · rw [exec_of_accepts (s := s.setHostRegs o l0 l1) hacc hadm, effect_setHostRegs]
    rfl

end Sys2Proof.Machine
end

section
/-! The step (10_state.md R52, 60_exceptions.md R212): whose move it is, what each agent can change, and the invariant
that every step keeps. -/

namespace Sys2Proof.Machine

/-! ### The engine's turn -/

/-- The engine is to move: by a prescribed turn, or by default; `ts` are the turns after this one. -/
def State.EngineTurn (s : State) (ts : List Turn) : Prop := s.turns = .engine :: ts ∨ (s.turns = [] ∧ ts = [])

theorem with_turns_eq_self {s : State} {ts : List Turn} (h : s.turns = ts) : { s with turns := ts } = s := by
  subst h
  rfl

section engine
variable {s : State} {ts : List Turn} (hb : s.status.busy = true)
include hb

theorem step_of_engine_turn (ht : s.turns = .engine :: ts) : step s = engineMove { s with turns := ts } := by
  rw [step, takeTurn, ht]
  exact if_pos hb

/-- With no turn prescribed the engine moves first. -/
theorem step_of_no_turn_next (ht : s.turns = []) {t : State} (h : engineMove s = .next t) : step s = .next t := by
  rw [step, takeTurn, ht, defaultTurn, if_pos hb, h]

theorem step_of_no_turn_refused (ht : s.turns = []) {r : Refusal} (h : engineMove s = .refused r) :
    step s = .refused r := by
  rw [step, takeTurn, ht, defaultTurn, if_pos hb, h]

/-- A stuck engine leaves the move to the host (20_memory.md R63). -/
theorem step_of_no_turn_stuck (ht : s.turns = []) {f : Fault} (h : engineMove s = .fault f) :
    step s = if s.hostOps = [] then .fault f else hostTurn s := by
  rw [step, takeTurn, ht, defaultTurn, if_pos hb, h]

theorem step_of_engine_next (ht : s.EngineTurn ts) {t : State} (h : engineMove { s with turns := ts } = .next t) :
    step s = .next t := by
  obtain ht | ⟨ht, rfl⟩ := ht
  · rw [step_of_engine_turn hb ht, h]
  · exact step_of_no_turn_next hb ht (with_turns_eq_self ht ▸ h)

theorem step_of_engine_refused (ht : s.EngineTurn ts) {r : Refusal}
    (h : engineMove { s with turns := ts } = .refused r) : step s = .refused r := by
  obtain ht | ⟨ht, rfl⟩ := ht
  · rw [step_of_engine_turn hb ht, h]
  · exact step_of_no_turn_refused hb ht (with_turns_eq_self ht ▸ h)

end engine

theorem executeLatched_of_decode_ok {s : State} {i : Instr} (h : decodeWord s.latch.op = .ok i) :
    executeLatched s = exec i s := by
  rw [executeLatched, h]

theorem noteOutputs_of_coherent {s : State} (h : s.platform.coherent = true) (t : State) : s.noteOutputs t = t :=
  if_pos h

theorem noteOutputs_of_incoherent {s : State} (h : s.platform.coherent = false) (t : State) :
    s.noteOutputs t = { t with stale := s.writeRanges ++ t.stale } :=
  if_neg (by simp [h])

/-- An illegal word has no output range to note. -/
theorem writeRanges_of_decode_error {s : State} {e : DecodeError} (h : decodeWord s.latch.op = .error e) :
    s.writeRanges = [] := by
  rw [State.writeRanges, State.activeFootprint, h]
  rfl

theorem noteOutputs_of_decode_error {s : State} {e : DecodeError} (h : decodeWord s.latch.op = .error e) (t : State) :
    s.noteOutputs t = t := by
  cases hc : s.platform.coherent
  · rw [noteOutputs_of_incoherent hc, writeRanges_of_decode_error h]
    rfl
  · exact noteOutputs_of_coherent hc t

section engineMove
variable {s : State}

theorem engineMove_of_next {t : State} (h : executeLatched s = .next t) : engineMove s = .next (s.noteOutputs t) := by
  rw [engineMove, h]

theorem engineMove_of_fault {f : Fault} (h : executeLatched s = .fault f) : engineMove s = .fault f := by
  rw [engineMove, h]

theorem engineMove_of_refused {r : Refusal} (h : executeLatched s = .refused r) : engineMove s = .refused r := by
  rw [engineMove, h]

end engineMove

theorem engineMove_of_coherent {s : State} (h : s.platform.coherent = true) : engineMove s = executeLatched s := by
  unfold engineMove
  cases executeLatched s with
  | next t => exact congrArg _ (noteOutputs_of_coherent h t)
  | fault f => rfl
  | refused r => rfl

/-- Settles O4: by what `exec` answers; the bookkeeping of output ranges is apart. -/
theorem stepRunsDecodedCommand : Obligations.StepRunsDecodedCommand := by
  refine fun s ts ht hb => ⟨fun i hi => ?command, fun e he => ?illegal⟩
  case command =>
    have hexec := executeLatched_of_decode_ok (s := { s with turns := ts }) hi
    refine ⟨fun t h => ?_, fun f h hturn => ?_, fun r h => ?_⟩
    · rw [step_of_engine_next hb ht (engineMove_of_next (hexec.trans h))]
      exact ⟨fun hc => congrArg _ (noteOutputs_of_coherent hc t),
        fun hc => congrArg _ (noteOutputs_of_incoherent hc t)⟩
    · rw [step_of_engine_turn hb hturn, engineMove_of_fault (hexec.trans h)]
    · exact step_of_engine_refused hb ht (engineMove_of_refused (hexec.trans h))
  case illegal =>
    have hexec := executeLatched_of_decode_error (s := { s with turns := ts }) he
    rw [step_of_engine_next hb ht (engineMove_of_next hexec)]
    exact congrArg _ (noteOutputs_of_decode_error he _)

theorem tableWord_toNat (w : Word32) : tableWord 32 w.toNat = w := by
  rw [tableWord, Nat.mod_eq_of_lt w.isLt, BitVec.ofNat_toNat, BitVec.setWidth_eq]

/-- Settles O5: the word is accepted with an engine turn next, and it decodes to the command it encodes. -/
theorem fetchedWordIsRunNext : Obligations.FetchedWordIsRunNext := by
  intro s i hc
  rw [State.withFetchWord, tableWord_toNat, step_of_engine_turn (ts := s.turns) rfl rfl]
  rw [engineMove_of_coherent (s := { s.acceptNext (encode i) with turns := s.turns }) hc]
  exact executeLatched_of_decode_ok (decodeWord_encode i)

/-! ### The host's turn -/

section host
variable {s : State}

theorem hostTurn_of_done (h : s.hostOps = []) : hostTurn s = .next s := by
  rw [hostTurn, h]

theorem hostTurn_of_cons {op : HostOp} {rest : List HostOp} (h : s.hostOps = op :: rest) :
    hostTurn s = hostMove s op rest := by
  rw [hostTurn, h]

theorem step_of_host_turn {ts : List Turn} (h : s.turns = .host :: ts) : step s = hostTurn { s with turns := ts } := by
  rw [step, takeTurn, h]

theorem step_of_no_turn_idle (ht : s.turns = []) (hb : s.status.busy = false) : step s = hostTurn s := by
  rw [step, takeTurn, ht]
  exact if_neg (by simp [hb])

theorem step_of_engine_turn_idle {ts : List Turn} (ht : s.turns = .engine :: ts) (hb : s.status.busy = false) :
    step s = .next { s with turns := ts } := by
  rw [step, takeTurn, ht]
  exact if_neg (by simp [hb])

end host

/-- Settles O6: the engine is stuck, idle, or not asked; what is left is the host's turn. -/
theorem hostMovesWhenTheEngineDoesNot : Obligations.HostMovesWhenTheEngineDoesNot := by
  refine ⟨fun s i why ht hb hi h => ?stuck, fun s ht hb => ?idle, fun s ts => ⟨fun ht => ?host, ?engine⟩⟩
  case stuck =>
    have hstep := step_of_no_turn_stuck hb ht (engineMove_of_fault ((executeLatched_of_decode_ok hi).trans h))
    refine ⟨fun hdone => by rw [hstep, if_pos hdone], fun op rest hops => ?_⟩
    rw [hstep, if_neg (by simp [hops]), hostTurn_of_cons hops]
  case idle =>
    rw [step_of_no_turn_idle ht hb]
    exact ⟨hostTurn_of_done, fun _ _ => hostTurn_of_cons⟩
  case host =>
    rw [step_of_host_turn ht]
    exact ⟨fun h => hostTurn_of_done h, fun _ _ h => hostTurn_of_cons h⟩
  case engine => exact step_of_engine_turn_idle

/-! ### What a host move can change -/

/-- A register read changes nothing but what the host has read and the draw counter (20_memory.md R69). -/
theorem hostRegRead_eq (s : State) (off : BitVec 12) :
    ∃ r d, hostRegRead s off = { s with hostReads := r, draws := d } := by
  unfold hostRegRead
  split
  · exact ⟨_, s.draws, rfl⟩
  · exact ⟨_, _, rfl⟩

/-- A host move that goes on is a register write, a store, or a move that changes only the host agent and the model's
bookkeeping. -/
theorem hostMove_next_cases {s t : State} {op : HostOp} {rest : List HostOp} (h : hostMove s op rest = .next t) :
    (∃ off v, op = .regWrite .w32 off v ∧ t = State.writeReg { s with hostOps := rest } off.toNat v) ∨
    (∃ a v, op = .memWrite a v ∧ t = { s with
      hostOps := rest, mem := s.mem.write a.toNat v, cleaned := minusAll s.cleaned ⟨a.toNat, 1⟩ }) ∨
    ((∀ a v, op ≠ .memWrite a v) ∧
      ∃ l r c u d, t = { s with hostOps := l, hostReads := r, cleaned := c, stale := u, draws := d }) := by
  cases op with
  | regWrite width off v =>
    simp only [hostMove, registerShape, Bool.and_eq_true, beq_iff_eq] at h
    split_ifs at h with hshape
    obtain ⟨rfl, _⟩ := hshape
    simp only [hostRegWrite] at h
    split_ifs at h
    injection h with h
    exact .inl ⟨off, v, rfl, h.symm⟩
  | regRead width off =>
    simp only [hostMove] at h
    split_ifs at h
    injection h with h
    obtain ⟨r, d, hr⟩ := hostRegRead_eq { s with hostOps := rest } off
    exact .inr (.inr ⟨nofun, rest, r, s.cleaned, s.stale, d, h.symm.trans hr⟩)
  | waitIdle =>
    simp only [hostMove] at h
    injection h with h
    refine .inr (.inr ⟨nofun, ?_⟩)
    subst h
    split_ifs
    · obtain ⟨r, d, hr⟩ := hostRegRead_eq s 0x004
      exact ⟨s.hostOps, r, s.cleaned, s.stale, d, hr⟩
    · obtain ⟨r, d, hr⟩ := hostRegRead_eq { s with hostOps := rest } 0x004
      exact ⟨rest, r, s.cleaned, s.stale, d, hr⟩
  | memWrite a v =>
    simp only [hostMove, hostMemWrite] at h
    split_ifs at h
    injection h with h
    exact .inr (.inl ⟨a, v, rfl, h.symm⟩)
  | memRead a =>
    simp only [hostMove, hostMemRead] at h
    split_ifs at h
    injection h with h
    exact .inr (.inr ⟨nofun, rest, _, s.cleaned, s.stale, s.draws, h.symm⟩)
  | cacheClean r =>
    simp only [hostMove] at h
    injection h with h
    exact .inr (.inr ⟨nofun, rest, s.hostReads, _, s.stale, s.draws, h.symm⟩)
  | cacheInvalidate r =>
    simp only [hostMove] at h
    injection h with h
    exact .inr (.inr ⟨nofun, rest, s.hostReads, s.cleaned, _, s.draws, h.symm⟩)

/-! ### The invariant (10_state.md R24, R36; 60_exceptions.md R201, R205) -/

/-- Settles O8: memory lists nothing, no flag is set, the code is `OK`, and the rate is unused. -/
theorem resetMeetsInvariant : Obligations.ResetMeetsInvariant :=
  ⟨rfl, by decide, .inl rfl, fun _ => Nat.zero_le _⟩

/-- The invariant speaks of memory, the flags, `RESULT` and the sponge only. -/
theorem inv_congr {s t : State} (h : s.Inv) (hm : t.mem = s.mem) (hf : t.status = s.status)
    (hr : t.result = s.result) (hp : t.sponge = s.sponge) : t.Inv := by
  obtain ⟨hmem, hflags, hresult, hrate⟩ := h
  refine ⟨hm ▸ hmem, hf ▸ hflags, ?_, hp ▸ hrate⟩
  rwa [State.resultListed, hr]

theorem inv_complete {s : State} {c : ResultCode} (hc : c ≠ .eAlloc) (hm : s.mem.wf = true)
    (hr : s.sponge.phase = .absorb → s.sponge.rateUsed.val ≤ 167) : (s.complete c).Inv := by
  refine ⟨hm, fun h => absurd h.1 (by simp), ?_, hr⟩
  cases c <;> simp [State.resultListed] at hc ⊢

/-- No accepted command exhausts the rate in the absorb phase. -/
theorem effect_rate {i : Instr} {s : State} (hacc : s.Accepts i)
    (h : s.sponge.phase = .absorb → s.sponge.rateUsed.val ≤ 167) :
    (effect i s).sponge.phase = .absorb → (effect i s).sponge.rateUsed.val ≤ 167 := by
  cases i
  case spongeAbsorb =>
    rw [effect_spongeAbsorb, absorb_phase]
    exact fun hp => absorb_rate _ _ (h hp)
  case spongeSqueeze =>
    have hp := hacc.2
    simp only [effect, writeBytes_sponge, squeeze_phase]
    intro habsorb
    rw [habsorb] at hp
    cases hp
  case qvInit | qvHash | vortexHash | spongeInit => simp [effect, Sponge.init]
  case spongeFinal => simp [effect, Sponge.finalize]
  all_goals exact h

theorem inv_engineMove {s t : State} (h : s.Inv) (ht : engineMove s = .next t) : t.Inv := by
  have note : ∀ u : State, u.Inv → (s.noteOutputs u).Inv := by
    intro u hu
    cases hc : s.platform.coherent
    · rw [noteOutputs_of_incoherent hc]
      exact inv_congr hu rfl rfl rfl rfl
    · rwa [noteOutputs_of_coherent hc]
  obtain ⟨u, rfl, ⟨_, rfl⟩ | ⟨i, _, hu⟩⟩ := engineMove_cases ht
  · exact note _ (inv_complete nofun h.memory h.rate)
  · obtain ⟨_, rfl⟩ | ⟨_, _, rfl⟩ | ⟨hacc, hadm, rfl⟩ := exec_next_cases hu
    · exact note _ (inv_complete nofun h.memory h.rate)
    · exact note _ (inv_complete nofun h.memory h.rate)
    · exact note _ (inv_complete nofun (effect_wf h.memory hadm) (effect_rate hacc h.rate))

theorem inv_writeReg {s : State} (h : s.Inv) (off : Nat) (v : Word32) : (s.writeReg off v).Inv := by
  obtain ⟨_, he⟩ | ⟨_, he⟩ | ⟨_, o, l0, l1, he⟩ := writeReg_cases s off v <;> rw [he]
  · cases hb : s.status.busy
    · rw [writeCmd_of_idle hb]
      exact ⟨h.memory, fun hf => absurd hf.2 (by simp), h.result, h.rate⟩
    · rw [writeCmd_of_busy hb]
      exact ⟨h.memory, fun hf => h.flags ⟨hb, hf.2⟩, h.result, h.rate⟩
  · rw [writeStatus_eq]
    exact ⟨h.memory, h.flags, h.result, h.rate⟩
  · exact inv_congr h rfl rfl rfl rfl

theorem inv_hostMove {s t : State} {op : HostOp} {rest : List HostOp} (h : s.Inv) (ht : hostMove s op rest = .next t) :
    t.Inv := by
  obtain ⟨off, v, _, rfl⟩ | ⟨a, v, _, rfl⟩ | ⟨_, l, r, c, u, d, rfl⟩ := hostMove_next_cases ht
  · exact inv_writeReg (s := { s with hostOps := rest }) (inv_congr h rfl rfl rfl rfl) _ _
  · exact ⟨Memory.wf_write v h.memory a.isLt, h.flags, h.result, h.rate⟩
  · exact inv_congr h rfl rfl rfl rfl

theorem wf_abandonCommand {s : State} (h : s.mem.wf = true) : s.abandonCommand.mem.wf = true := by
  have fold : ∀ (rs : List Range) (u : State), u.mem.wf = true → (rs.foldl State.scrambleRange u).mem.wf = true := by
    intro rs
    induction rs with
    | nil => exact fun u hu => hu
    | cons r rs ih => exact fun u hu => ih _ (wf_scrambleRange r hu)
  unfold State.abandonCommand
  split_ifs
  · exact fold _ _ h
  · exact h

theorem inv_applyReset {s : State} (h : s.Inv) : (applyReset s).Inv :=
  ⟨wf_abandonCommand h.memory, by simp [applyReset, Status.reset], .inl rfl, fun _ => Nat.zero_le _⟩

/-- Settles O11: by the agent that moves. -/
theorem stepKeepsInvariant : Obligations.StepKeepsInvariant := by
  intro s t h hstep
  obtain ⟨ts, hcases⟩ := step_cases hstep
  have h' : State.Inv { s with turns := ts } := inv_congr h rfl rfl rfl rfl
  obtain ⟨_, rfl⟩ | ⟨_, hmove⟩ | ⟨op, rest, _, hmove⟩ | rfl := hcases
  · exact inv_applyReset h'
  · exact inv_engineMove h' hmove
  · exact inv_hostMove h' hmove
  · exact h'

/-! ### Who changes `RESULT`, the sponge, the context and `LATCH` (10_state.md R37, R49; 20_memory.md R75) -/

theorem engineMove_completes {s t : State} (h : engineMove s = .next t) :
    t.latch = s.latch ∧ t.status.busy = false ∧ t.status.isDone = true := by
  obtain ⟨u, rfl, hu⟩ := engineMove_cases h
  have hfin : ∃ c, s.Finishes u c := by
    obtain ⟨_, rfl⟩ | ⟨i, _, hexec⟩ := hu
    · exact ⟨_, finishes_complete s _⟩
    · exact exec_finishes hexec
  obtain ⟨_, hfin⟩ := hfin
  cases hc : s.platform.coherent
  · rw [noteOutputs_of_incoherent hc]
    exact ⟨hfin.latch, hfin.busy, hfin.isDone⟩
  · rw [noteOutputs_of_coherent hc]
    exact ⟨hfin.latch, hfin.busy, hfin.isDone⟩

/-- A register write leaves the engine's registers; only an accepted `CMD` write fills `LATCH`. -/
theorem writeReg_engine_frame (s : State) (off : Nat) (v : Word32) :
    (s.writeReg off v).result = s.result ∧ (s.writeReg off v).sponge = s.sponge ∧ (s.writeReg off v).ctx = s.ctx ∧
      ((s.writeReg off v).latch = s.latch ∨ off = 0x000 ∧ s.status.busy = false ∧ s.writeReg off v = { s with
        latch := { op := v, operands := s.operands },
        status := { busy := true, isDone := false, overrun := s.status.overrun } }) := by
  obtain ⟨h0, he⟩ | ⟨_, he⟩ | ⟨_, o, l0, l1, he⟩ := writeReg_cases s off v <;> rw [he]
  · cases hb : s.status.busy
    · rw [writeCmd_of_idle hb]
      exact ⟨rfl, rfl, rfl, .inr ⟨h0, rfl, rfl⟩⟩
    · rw [writeCmd_of_busy hb]
      exact ⟨rfl, rfl, rfl, .inl rfl⟩
  · rw [writeStatus_eq]
    exact ⟨rfl, rfl, rfl, .inl rfl⟩
  · exact ⟨rfl, rfl, rfl, .inl rfl⟩

theorem not_changed {s t : State} (hr : t.result = s.result) (hp : t.sponge = s.sponge) (hc : t.ctx = s.ctx) :
    ¬ (t.result ≠ s.result ∨ t.sponge ≠ s.sponge ∨ t.ctx ≠ s.ctx) := by
  simp [hr, hp, hc]

/-- Settles O27: by the agent that moves; an engine move completes, and a host move is seen by its access. -/
theorem onlyCompletionChangesEngineState : Obligations.OnlyCompletionChangesEngineState := by
  intro s t hstep hreset
  obtain ⟨ts, ⟨ht, _⟩ | ⟨hb, hmove⟩ | ⟨op, rest, hops, hmove⟩ | rfl⟩ := step_cases hstep
  · exact absurd ht (hreset ts)
  · obtain ⟨hl, hbusy, hdone⟩ := engineMove_completes hmove
    exact ⟨fun _ => ⟨hb, hbusy, hdone⟩, fun h => absurd hl h⟩
  · obtain ⟨off, v, rfl, rfl⟩ | ⟨a, v, _, rfl⟩ | ⟨_, l, r, c, u, d, rfl⟩ := hostMove_next_cases hmove
    · obtain ⟨hr, hp, hc, hl | ⟨hoff, hb, he⟩⟩ := writeReg_engine_frame
        { s with turns := ts, hostOps := rest } off.toNat v
      · exact ⟨fun h => absurd h (not_changed hr hp hc), fun h => absurd hl h⟩
      · obtain rfl : off = 0x000 := BitVec.eq_of_toNat_eq hoff
        refine ⟨fun h => absurd h (not_changed hr hp hc), fun _ => ?_⟩
        rw [he]
        exact ⟨hb, rfl, rfl, rfl, v, rest, hops, rfl⟩
    · exact ⟨fun h => absurd h (not_changed rfl rfl rfl), fun h => absurd rfl h⟩
    · exact ⟨fun h => absurd h (not_changed rfl rfl rfl), fun h => absurd rfl h⟩
  · exact ⟨fun h => absurd h (not_changed rfl rfl rfl), fun h => absurd rfl h⟩

end Sys2Proof.Machine
end

section
/-! The host's accesses (20_memory.md R67, R73, R76; 10_state.md R48): which are refused, which are performed, and what
they read; and the host memory that reset writes (70_reset_and_hazards.md R231). -/

namespace Sys2Proof.Machine

/-! ### Memory after reset (70_reset_and_hazards.md R231) -/

theorem read_scrambleRange_outside (s : State) {r : Range} {c : Nat} (h : ¬ r.Has c) :
    (s.scrambleRange r).mem.read c = s.mem.read c := by
  refine Memory.read_writeBytes_outside _ _ _ _ ?_
  simp only [Range.Has, freeBytes, length_tabulateFrom_eq] at h ⊢
  omega

theorem read_foldl_scrambleRange_outside {c : Nat} (rs : List Range) (s : State) (h : ∀ r ∈ rs, ¬ r.Has c) :
    (rs.foldl State.scrambleRange s).mem.read c = s.mem.read c := by
  induction rs generalizing s with
  | nil => rfl
  | cons r rs ih =>
    obtain ⟨hr, hrs⟩ := List.forall_mem_cons.1 h
    rw [List.foldl_cons, ih _ hrs, read_scrambleRange_outside s hr]

theorem read_abandonCommand_outside {s : State} {c : Nat} (h : s.status.busy = true → ∀ r ∈ s.writeRanges, ¬ r.Has c) :
    s.abandonCommand.mem.read c = s.mem.read c := by
  unfold State.abandonCommand
  split_ifs with hb
  · exact read_foldl_scrambleRange_outside _ s (h hb)
  · rfl

/-- What reset leaves of a state: memory and the draw counter change only by abandoning the command. -/
theorem applyReset_eq (s : State) : ∃ d, applyReset s = State.resetBlock { s with
    mem := s.abandonCommand.mem, draws := d } := by
  obtain ⟨m, d, h⟩ := abandonCommand_eq s
  exact ⟨d, by rw [applyReset, h]⟩

/-- Settles O10: reset clears the block, and abandoning the command writes only in the ranges it drew bytes for. -/
theorem resetWritesOnlyAbandonedOutputs : Obligations.ResetWritesOnlyAbandonedOutputs := by
  intro s ts ht
  obtain ⟨d, h⟩ := applyReset_eq { s with turns := ts }
  rw [step_of_reset_turn ht, h]
  refine ⟨_, rfl, rfl, rfl, fun c hc => ?_, rfl, rfl, rfl, rfl, rfl, rfl⟩
  refine read_abandonCommand_outside (s := { s with turns := ts }) fun hb r hr hin => ?_
  have := hc hb r hr
  simp only [Range.Has] at hin
  omega

/-! ### The host's access as a step -/

theorem step_of_host_op {s : State} {ts : List Turn} {op : HostOp} {rest : List HostOp} (ht : s.turns = .host :: ts)
    (hops : s.hostOps = op :: rest) : step s = hostMove { s with turns := ts } op rest := by
  rw [step_of_host_turn ht]
  exact hostTurn_of_cons hops

section register
variable (s : State) (rest : List HostOp) {off : BitVec 12}

theorem registerShape_w32 (h : off.toNat % 4 = 0) : registerShape .w32 off = true := by
  simp [registerShape, h]

theorem registerShape_of_other {width : AccessWidth} (h : width ≠ .w32 ∨ off.toNat % 4 ≠ 0) :
    registerShape width off = false := by
  obtain h | h := h <;> simp [registerShape, h]

theorem hostMove_regWrite (h : off.toNat % 4 = 0) (v : Word32) :
    hostMove s (.regWrite .w32 off v) rest = hostRegWrite { s with hostOps := rest } off v :=
  if_pos (registerShape_w32 h)

theorem hostMove_regRead (h : off.toNat % 4 = 0) :
    hostMove s (.regRead .w32 off) rest = .next (hostRegRead { s with hostOps := rest } off) :=
  if_pos (registerShape_w32 h)

theorem hostMove_regWrite_of_shape {width : AccessWidth} (h : registerShape width off = false) (v : Word32) :
    hostMove s (.regWrite width off v) rest = .refused .registerAccessShape :=
  if_neg (by simp [h])

theorem hostMove_regRead_of_shape {width : AccessWidth} (h : registerShape width off = false) :
    hostMove s (.regRead width off) rest = .refused .registerAccessShape :=
  if_neg (by simp [h])

end register

/-! ### Register reads (10_state.md R48) -/

theorem hostRegRead_of_some {s : State} {off : BitVec 12} {v : Word32} (h : s.readReg off.toNat = some v) :
    hostRegRead s off = { s with hostReads := .reg off v :: s.hostReads } := by
  rw [hostRegRead, h]
  rfl

theorem hostRegRead_of_none {s : State} {off : BitVec 12} (h : s.readReg off.toNat = none) :
    hostRegRead s off = { s with
      hostReads := .reg off (Config.freeWord s.draws) :: s.hostReads, draws := s.draws + 1 } := by
  rw [hostRegRead, h]
  rfl

/-- The offsets of the registers that show engine state (10_state.md R34). -/
def EngineOffset (off : Nat) : Prop :=
  (0x060 ≤ off ∧ off ≤ 0x06C) ∨ (0x100 ≤ off ∧ off ≤ 0x1C4) ∨ (0x200 ≤ off ∧ off ≤ 0x23C) ∨
    (0x300 ≤ off ∧ off ≤ 0x3FC) ∨ (0x400 ≤ off ∧ off ≤ 0x43C)

theorem engineReg_of_engineOffset (s : State) {off : Nat} (h4 : off % 4 = 0) (h : EngineOffset off) :
    ∃ v, s.engineReg off = some v := by
  unfold EngineOffset at h
  unfold State.engineReg
  split_ifs <;> first | exact ⟨_, rfl⟩ | omega

theorem readReg_of_busy {s : State} (hb : s.status.busy = true) {off : Nat} (h4 : off % 4 = 0)
    (h : EngineOffset off) : s.readReg off = none := by
  obtain ⟨v, hv⟩ := engineReg_of_engineOffset s h4 h
  rw [State.readReg, hv]
  exact if_pos hb

/-- Settles O25: the registers that show engine state have no value while `BUSY = 1`, those below them always have. -/
theorem windowReadsWhileBusyAreDrawn : Obligations.WindowReadsWhileBusyAreDrawn := by
  intro s off ts rest hb ht hops h4
  rw [step_of_host_op ht hops, hostMove_regRead _ rest h4]
  refine ⟨fun (h : EngineOffset off.toNat) => ?_, fun h => ?_⟩
  · rw [hostRegRead_of_none (s := { s with turns := ts, hostOps := rest }) (readReg_of_busy hb h4 h)]
  · have hv : s.readReg off.toNat = some (s.plainReg off.toNat) := readReg_below s (by omega)
    exact ⟨_, hv, by rw [hostRegRead_of_some (s := { s with turns := ts, hostOps := rest }) hv]⟩

/-! ### Register writes, and the shape of accesses (20_memory.md R67, R76) -/

theorem hostRegWrite_of_not_accepting {s : State} {off : BitVec 12} {v : Word32}
    (h : ¬ (off = 0 ∧ s.status.busy = false ∧ (s.writeReg off.toNat v).inputsCleaned = false)) :
    hostRegWrite s off v = .next (s.writeReg off.toNat v) := if_neg h

theorem hostRegWrite_of_uncleaned {s : State} {v : Word32} (hb : s.status.busy = false)
    (h : (s.writeCmd v).inputsCleaned = false) : hostRegWrite s 0x000 v = .refused .cleanMissing :=
  if_pos ⟨rfl, hb, h⟩

theorem hostRegWrite_of_cleaned {s : State} {v : Word32} (h : (s.writeCmd v).inputsCleaned = true) :
    hostRegWrite s 0x000 v = .next (s.writeCmd v) :=
  hostRegWrite_of_not_accepting fun hnot => Bool.eq_false_iff.1 hnot.2.2 h

theorem writeReg_platform (s : State) (off : Nat) (v : Word32) : (s.writeReg off v).platform = s.platform := by
  obtain ⟨_, he⟩ | ⟨_, he⟩ | ⟨_, o, l0, l1, he⟩ := writeReg_cases s off v <;> rw [he]
  · unfold State.writeCmd
    split_ifs <;> rfl
  · rw [writeStatus_eq]
  · rfl

theorem inputsCleaned_of_coherent {s : State} (h : s.platform.coherent = true) : s.inputsCleaned = true := by
  rw [State.inputsCleaned, h, Bool.true_or]

/-- Settles O28: the shape is judged first; a write then waits only for cache maintenance, a read only for a value. -/
theorem onlyAlignedWordAccessesReachTheBlock : Obligations.OnlyAlignedWordAccessesReachTheBlock := by
  refine fun s ts rest ht => ⟨fun width off v hshape hops => ?shape, fun a v hin hops => ?byte,
    fun off v h4 hops hperf => ?write, fun off v h4 hops hv => ?read, fun hops => ?poll⟩
  case shape =>
    obtain hops | hops := hops
    · rw [step_of_host_op ht hops, hostMove_regWrite_of_shape _ _ (registerShape_of_other hshape)]
    · rw [step_of_host_op ht hops, hostMove_regRead_of_shape _ _ (registerShape_of_other hshape)]
  case byte =>
    obtain hops | hops := hops
    · rw [step_of_host_op ht hops]
      exact if_pos hin
    · rw [step_of_host_op ht hops]
      exact if_pos hin
  case write =>
    rw [step_of_host_op ht hops, hostMove_regWrite _ rest h4]
    refine hostRegWrite_of_not_accepting fun ⟨hoff, hb, hclean⟩ => ?_
    obtain h | h | h := hperf
    · exact h hoff
    · rw [h] at hb
      cases hb
    · rw [inputsCleaned_of_coherent (by rw [writeReg_platform, h])] at hclean
      cases hclean
  case read =>
    rw [step_of_host_op ht hops, hostMove_regRead _ rest h4,
      hostRegRead_of_some (s := { s with turns := ts, hostOps := rest }) hv]
  case poll =>
    have hv : s.readReg 0x004 = some (s.plainReg 0x004) := readReg_below s (by decide)
    refine ⟨_, hv, ?_⟩
    rw [step_of_host_op ht hops, hostMove]
    split_ifs
    · rw [hostRegRead_of_some (s := { s with turns := ts }) (off := 0x004) hv]
    · rw [hostRegRead_of_some (s := { s with turns := ts, hostOps := rest }) (off := 0x004) hv]

/-! ### The bytes of the latched command (70_reset_and_hazards.md R236) -/

/-- The latched command touches the operand ranges of a command that decodes and passes its checks. -/
theorem mem_activeFootprint {s : State} {o : Operand} : o ∈ s.activeFootprint ↔
    ∃ i, decodeWord s.latch.op = .ok i ∧ s.Accepts i ∧ o ∈ footprint i s.latch.operands := by
  unfold State.activeFootprint State.Accepts
  cases hd : decodeWord s.latch.op with
  | error e => simp
  | ok i =>
    cases hn : nullFault i s.latch.operands <;> cases hp : phaseFault i s.sponge.phase <;> simp [hn, hp]

theorem inSome_readRanges {s : State} {c : Nat} :
    InSome s.readRanges c ↔ ∃ o ∈ s.activeFootprint, o.access = .read ∧ o.range.Has c := by
  simp [InSome, State.readRanges, and_assoc]

theorem inSome_writeRanges {s : State} {c : Nat} :
    InSome s.writeRanges c ↔ ∃ o ∈ s.activeFootprint, o.access = .write ∧ o.range.Has c := by
  simp [InSome, State.writeRanges, and_assoc]

theorem commandReads_iff {s : State} {a : Addr} : s.commandReads a = true ↔
    s.status.busy = true ∧ ∃ o ∈ s.activeFootprint, o.access = .read ∧ o.range.Has a.toNat := by
  rw [State.commandReads, Bool.and_eq_true, any_contains_iff, inSome_readRanges]

theorem commandWrites_iff {s : State} {a : Addr} : s.commandWrites a = true ↔
    s.status.busy = true ∧ ∃ o ∈ s.activeFootprint, o.access = .write ∧ o.range.Has a.toNat := by
  rw [State.commandWrites, Bool.and_eq_true, any_contains_iff, inSome_writeRanges]

/-- The running command touches byte `a`. -/
theorem commandTouches_iff {s : State} {a : Addr} : (s.commandReads a || s.commandWrites a) = true ↔
    s.status.busy = true ∧ ∃ o ∈ s.activeFootprint, o.range.Has a.toNat := by
  rw [Bool.or_eq_true, commandReads_iff, commandWrites_iff, ← and_or_left]
  refine and_congr_right fun _ => ⟨?_, fun ⟨o, ho, ha⟩ => ?_⟩
  · rintro (⟨o, ho, _, ha⟩ | ⟨o, ho, _, ha⟩) <;> exact ⟨o, ho, ha⟩
  · cases hacc : o.access
    · exact .inl ⟨o, ho, hacc, ha⟩
    · exact .inr ⟨o, ho, hacc, ha⟩

/-! ### Host stores and loads (20_memory.md R73, R76) -/

section memory
variable {s : State} {a : Addr} (hblock : s.platform.inBlock a = false) (hplain : s.platform.hostMemoryAt a = true)
include hblock hplain

theorem hostMemWrite_eq (v : Byte) : hostMemWrite s a v =
    if s.commandReads a || s.commandWrites a then .refused .operandRace
    else .next { s with mem := s.mem.write a.toNat v, cleaned := minusAll s.cleaned ⟨a.toNat, 1⟩ } := by
  rw [hostMemWrite, if_neg (by simp [hblock]), if_neg (by simp [hplain])]

theorem hostMemRead_eq : hostMemRead s a =
    if s.commandWrites a then .refused .operandRace
    else if s.staleAt a then .refused .invalidateMissing
    else .next (s.logRead (.mem a (s.mem.read a.toNat))) := by
  rw [hostMemRead, if_neg (by simp [hblock]), if_neg (by simp [hplain])]

end memory

theorem staleAt_of_coherent {s : State} (h : s.platform.coherent = true) (a : Addr) : s.staleAt a = false := by
  simp [State.staleAt, h]

theorem staleAt_iff {s : State} (h : s.platform.coherent = false) (a : Addr) :
    s.staleAt a = true ↔ InSome s.stale a.toNat := by
  rw [State.staleAt, h, Bool.not_false, Bool.true_and, any_contains_iff]

/-- Settles O29: a store races with every byte the running command touches, a load with those it writes. -/
theorem racingHostAccessIsRefused : Obligations.RacingHostAccessIsRefused := by
  intro s ts rest a v ht hblock hplain
  have hstore : s.hostOps = .memWrite a v :: rest → step s = _ := fun hops =>
    (step_of_host_op ht hops).trans (hostMemWrite_eq (s := { s with turns := ts, hostOps := rest }) hblock hplain v)
  have hload : s.hostOps = .memRead a :: rest → step s = _ := fun hops =>
    (step_of_host_op ht hops).trans (hostMemRead_eq (s := { s with turns := ts, hostOps := rest }) hblock hplain)
  refine ⟨fun i hb hi hacc => ⟨?storeRace, ?loadRace⟩, ?store, ?load⟩
  case storeRace =>
    rintro ⟨o, ho, ha⟩ hops
    rw [hstore hops]
    exact if_pos (commandTouches_iff.2 ⟨hb, o, mem_activeFootprint.2 ⟨i, hi, hacc, ho⟩, ha⟩)
  case loadRace =>
    rintro ⟨o, ho, hw, ha⟩ hops
    rw [hload hops]
    exact if_pos (commandWrites_iff.2 ⟨hb, o, mem_activeFootprint.2 ⟨i, hi, hacc, ho⟩, hw, ha⟩)
  case store =>
    intro hclear hops
    rw [hstore hops]
    refine ⟨_, if_neg fun h => ?_⟩
    obtain ⟨hb, o, ho, ha⟩ := commandTouches_iff.1 h
    obtain ⟨i, hi, hacc, ho⟩ := mem_activeFootprint.1 ho
    exact hclear hb i hi hacc o ho ha
  case load =>
    intro hclear hc hops
    rw [hload hops]
    refine (if_neg fun h => ?_).trans (if_neg (Bool.eq_false_iff.1 (staleAt_of_coherent hc a)))
    · obtain ⟨hb, o, ho, hw, ha⟩ := commandWrites_iff.1 h
      obtain ⟨i, hi, hacc, ho⟩ := mem_activeFootprint.1 ho
      exact hclear hb i hi hacc o ho hw ha

/-! ### Cache maintenance (20_memory.md R76) -/

theorem inputsCleaned_iff {s : State} (h : s.platform.coherent = false) :
    s.inputsCleaned = true ↔ ∀ c, InSome s.readRanges c → InSome s.cleaned c := by
  simp only [State.inputsCleaned, h, Bool.false_or, List.all_eq_true, coveredBy_iff, InSome]
  exact ⟨fun hr c ⟨r, hm, hc⟩ => hr r hm c hc, fun hr r hm c hc => hr c ⟨r, hm, hc⟩⟩

/-- Settles O30: the two lists against the input bytes of the accepted command and the byte loaded; the bytes of the
lists after each access are those of `minusAll`. -/
theorem missingCacheMaintenanceIsRefused : Obligations.MissingCacheMaintenanceIsRefused := by
  refine fun s ts rest ht hc => ⟨fun w i hops hb hi hn hp hraw => ?uncleaned, fun w hops hb hall => ?accepted,
    fun a hops hblock hplain hw => ⟨fun hstale => ?stale, fun hfresh => ?fresh⟩, fun r hops => ?clean,
    fun r hops => ?invalidate, fun a v t hops hstep c => ?store⟩
  case uncleaned =>
    obtain ⟨o, ho, hr, c, hin, hnot⟩ := hraw
    rw [step_of_host_op ht hops, hostMove_regWrite _ rest (by decide)]
    refine hostRegWrite_of_uncleaned hb ?_
    rw [writeCmd_of_idle (by exact hb), Bool.eq_false_iff, ne_eq, inputsCleaned_iff (by exact hc)]
    exact fun hall => hnot (hall c (inSome_readRanges.2 ⟨o, mem_activeFootprint.2 ⟨i, hi, ⟨hn, hp⟩, ho⟩, hr, hin⟩))
  case accepted =>
    have hcmd := writeCmd_of_idle (s := { s with turns := ts, hostOps := rest }) hb w
    rw [step_of_host_op ht hops, hostMove_regWrite _ rest (by decide), hostRegWrite_of_cleaned, hcmd]
    rw [hcmd, inputsCleaned_iff (by exact hc)]
    intro c hin
    obtain ⟨o, ho, hr, hin⟩ := inSome_readRanges.1 hin
    obtain ⟨i, hi, ⟨hn, hp⟩, ho⟩ := mem_activeFootprint.1 ho
    exact hall i hi hn hp o ho hr c hin
  case stale =>
    rw [step_of_host_op ht hops]
    refine (hostMemRead_eq (s := { s with turns := ts, hostOps := rest }) hblock hplain).trans ?_
    exact (if_neg (Bool.eq_false_iff.1 hw)).trans (if_pos ((staleAt_iff hc a).2 hstale))
  case fresh =>
    rw [step_of_host_op ht hops]
    refine (hostMemRead_eq (s := { s with turns := ts, hostOps := rest }) hblock hplain).trans ?_
    exact (if_neg (Bool.eq_false_iff.1 hw)).trans (if_neg fun h => hfresh ((staleAt_iff hc a).1 h))
  case clean => exact ⟨_, step_of_host_op ht hops, inSome_cons r s.cleaned⟩
  case invalidate => exact ⟨_, step_of_host_op ht hops, fun c => inSome_minusAll r c s.stale⟩
  case store =>
    rw [step_of_host_op ht hops] at hstep
    obtain ⟨_, _, h, _⟩ | ⟨a', v', h, rfl⟩ | ⟨h, _⟩ := hostMove_next_cases hstep
    · cases h
    · injection h with ha _
      subst ha
      rw [inSome_minusAll]
      refine and_congr_right fun _ => not_congr ?_
      simp only [Range.Has]
      omega
    · exact absurd rfl (h a v)

end Sys2Proof.Machine
end

section
/-! The ρ, π and χ steps (40_keccak.md R102 to R104, R107) and the two Keccak commands (R108, R109). -/

namespace Sys2Proof.Machine

/-! ### The chained walk (40_keccak.md R102) -/

/-- Lane `i` after a walk over places that do not repeat, read off the lanes before it: each place receives the lane
of the place before. -/
def walkedLane (a : Lanes) : Word → List (Nat × Nat) → Nat → Word
  | _, [], i => entry a i
  | t, (p, r) :: steps, i => if i = p then rotl64 t r else walkedLane a (entry a p) steps i

/-- Places that the walk can take: inside the file, and none twice. -/
def WalkPlaces (steps : List (Nat × Nat)) : Prop := (steps.map Prod.fst).Nodup ∧ ∀ q ∈ steps.map Prod.fst, q < 25

/-- A lane that the rest of the walk does not visit keeps what the walk has put there. -/
theorem walkedLane_set (a : Lanes) (x : Word) {p i : Nat} (hi : i < 25) (steps : List (Nat × Nat))
    (hlt : ∀ q ∈ steps.map Prod.fst, q < 25) (hp : p ∉ steps.map Prod.fst) (t : Word) :
    walkedLane (a.setIfInBounds p x) t steps i = if i = p then x else walkedLane a t steps i := by
  induction steps generalizing t with
  | nil => exact entry_set a p x hi
  | cons step steps ih =>
    obtain ⟨q, r⟩ := step
    obtain ⟨hq, hlt⟩ := List.forall_mem_cons.1 hlt
    have hqp : q ≠ p := (List.ne_of_not_mem_cons hp).symm
    simp only [walkedLane, entry_set a p x hq, if_neg hqp, ih hlt (List.not_mem_of_not_mem_cons hp)]
    split_ifs <;> first | rfl | omega

theorem entry_foldl_rhoPiWalkStep {i : Nat} (hi : i < 25) (steps : List (Nat × Nat)) (h : WalkPlaces steps)
    (a : Lanes) (t : Word) : entry (steps.foldl rhoPiWalkStep (a, t)).1 i = walkedLane a t steps i := by
  induction steps generalizing a t with
  | nil => rfl
  | cons step steps ih =>
    obtain ⟨p, r⟩ := step
    obtain ⟨hnodup, hlt⟩ := h
    obtain ⟨hp, hnodup⟩ := List.nodup_cons.1 hnodup
    obtain ⟨_, hlt⟩ := List.forall_mem_cons.1 hlt
    rw [List.foldl_cons, rhoPiWalkStep, ih ⟨hnodup, hlt⟩, walkedLane_set a _ hi steps hlt hp]
    rfl

theorem rotl64_zero (w : Word) : rotl64 w 0 = w := by
  apply BitVec.eq_of_getLsbD_eq
  intro j hj
  simp [rotl64, hj]

theorem walkPlaces_rhoPiSteps : WalkPlaces rhoPiSteps := by
  unfold WalkPlaces
  decide

/-- Settles O32: a step of the walk writes the lane it took one step before, and the table lists those pairs. -/
theorem rhoPiIsTheChainedWalk : Obligations.RhoPiIsTheChainedWalk := by
  intro a
  refine ext_entry fun i hi => ?_
  rw [rhoPiWalk, entry_foldl_rhoPiWalkStep hi rhoPiSteps walkPlaces_rhoPiSteps, entry_rhoPi a i hi]
  obtain rfl | hpos := Nat.eq_zero_or_pos i
  · exact rotl64_zero _
  · interval_cases i <;> rfl

/-! ### No step loses a lane (40_keccak.md R107) -/

/-- Every lane is the source of some row of the table. -/
theorem exists_rhoPi_source : ∀ j < 25, ∃ i < 25, (rhoPiTable.getD i (0, 0)).1 = j := by
  decide

theorem rhoPi_injective : Function.Injective rhoPi := by
  intro a b h
  refine ext_entry fun j hj => ?_
  obtain ⟨i, hi, rfl⟩ := exists_rhoPi_source j hj
  have := congrArg (entry · i) h
  simp only [entry_rhoPi _ i hi] at this
  exact rotl64_injective this

/-- χ on one lane of a row, given with the two lanes after it. -/
def chiLane (u v w : Word) : Word := u ^^^ (~~~ v &&& w)

/-- A lane of a row from the row after χ. -/
theorem lane_of_chi_row (l0 l1 l2 l3 l4 : Word) :
    l0 = chiLane l0 l1 l2 ^^^ (~~~ chiLane l1 l2 l3 &&&
      (chiLane l2 l3 l4 ^^^ (~~~ chiLane l3 l4 l0 &&& chiLane l4 l0 l1))) := by
  apply BitVec.eq_of_getLsbD_eq
  intro j hj
  simp only [chiLane, BitVec.getLsbD_xor, BitVec.getLsbD_and, BitVec.getLsbD_not, hj, decide_true, Bool.true_and]
  generalize l0.getLsbD j = b0, l1.getLsbD j = b1, l2.getLsbD j = b2, l3.getLsbD j = b3, l4.getLsbD j = b4
  revert b0 b1 b2 b3 b4
  decide

/-- The lane at `x` in row `y`, from that row after χ. -/
theorem lane_of_chi (a : Lanes) {x y : Nat} (hx : x < 5) (hy : y < 5) :
    entry a (5 * y + x) = entry (chi a) (5 * y + x) ^^^ (~~~ entry (chi a) (5 * y + (x + 1) % 5) &&&
      (entry (chi a) (5 * y + (x + 2) % 5) ^^^ (~~~ entry (chi a) (5 * y + (x + 3) % 5) &&&
        entry (chi a) (5 * y + (x + 4) % 5)))) := by
  rw [entry_chi a hx hy]
  iterate 4 rw [entry_chi a (Nat.mod_lt _ (by decide)) hy]
  interval_cases x <;> exact lane_of_chi_row _ _ _ _ _

theorem chi_injective : Function.Injective chi := by
  intro a b h
  refine ext_entry fun i hi => ?_
  have hrow : i = 5 * (i / 5) + i % 5 := by omega
  rw [hrow, lane_of_chi a (Nat.mod_lt _ (by decide)) (by omega), lane_of_chi b (Nat.mod_lt _ (by decide)) (by omega), h]

/-- Settles O33: a rotation loses nothing and every lane is some row's source; a row before χ is a function of the row
after it. -/
theorem rhoPiAndChiAreInjective : Obligations.RhoPiAndChiAreInjective := ⟨rhoPi_injective, chi_injective⟩

/-! ### `KECCAK_F` and `LANES_LOAD` (40_keccak.md R108, R109) -/

theorem effect_keccakF (s : State) : effect .keccakF s = s.setLanes (keccakF s.sponge.lanes) := rfl

theorem effect_lanesLoad (s : State) : effect .lanesLoad s =
    s.setLanes (lanesOfBytes fun k => s.mem.read (s.latch.operands.srcAddr.toNat + k)) := rfl

/-- The permutation with the generated round constants (40_keccak.md R100, R106). -/
theorem keccakF_eq_generated (a : Lanes) : keccakF a =
    (List.range 24).foldl (fun a r => iota (chi (rhoPi (theta a))) (generatedRoundConstant r)) a := by
  rw [keccakF_eq]
  refine List.foldl_ext _ _ a fun b r hr => ?_
  rw [roundConstantsAreTheLfsr r (List.mem_range.1 hr)]

/-- Settles O35: the command has no check and no operand range, and its effect is the permutation. -/
theorem keccakFPermutesTheLaneFile : Obligations.KeccakFPermutesTheLaneFile := by
  refine fun s => ⟨_, exec_of_accepts ⟨rfl, rfl⟩ (admits_of_footprint_nil rfl), finishes_effect .keccakF s .ok, ?lanes,
    ?_, ?_, ?_, fun c => ?_⟩
  case lanes => rw [complete_sponge, effect_keccakF, setLanes_lanes, keccakF_eq_generated]
  all_goals simp only [complete_sponge, complete_ctx, complete_mem, effect_keccakF, setLanes_rateUsed, setLanes_phase,
    setLanes_ctx, setLanes_mem]

theorem accepts_of_srcAddr {i : Instr} {s : State} (hi : nullFault i s.latch.operands = (s.latch.operands.srcAddr == 0))
    (hp : phaseFault i s.sponge.phase = false) (h : s.latch.operands.srcAddr ≠ 0) : s.Accepts i :=
  ⟨hi.trans (beq_eq_false_iff_ne.2 h), hp⟩

/-- Settles O36: the lane file is built from the 200 bytes, and its state bytes are those. -/
theorem lanesLoadLoadsTwoHundredBytes : Obligations.LanesLoadLoadsTwoHundredBytes := by
  refine fun s h hadm => ⟨_, exec_of_accepts (accepts_of_srcAddr rfl rfl h) hadm, finishes_effect .lanesLoad s .ok,
    fun k hk => ?bytes, ?_, ?_, ?_, fun c => ?_⟩
  case bytes =>
    rw [complete_sponge, effect_lanesLoad, setLanes_lanes]
    exact stateByte_lanesOfBytes _ k hk
  all_goals simp only [complete_sponge, complete_ctx, complete_mem, effect_lanesLoad, setLanes_rateUsed, setLanes_phase,
    setLanes_ctx, setLanes_mem]

end Sys2Proof.Machine
end

section
/-! Absorbing and squeezing (41_sponge.md R123, R125, R128, R130): within one rate, over any length,
and in any split. -/

namespace Sys2Proof.Machine

/-! ### Absorbing within the rate (41_sponge.md R123) -/

/-- Bytes XORed into the lane file at `k, k+1, ...`. -/
def xorStateBytes (a : Lanes) : Nat → List Byte → Lanes
  | _, [] => a
  | k, v :: m => xorStateBytes (xorStateByte a k v) (k + 1) m

theorem stateByte_xorStateBytes (m : List Byte) (a : Lanes) (k : Nat) (hk : k + m.length ≤ 200) {j : Nat}
    (hj : j < 200) : stateByte (xorStateBytes a k m) j =
      if k ≤ j ∧ j < k + m.length then stateByte a j ^^^ m.getD (j - k) 0 else stateByte a j := by
  induction m generalizing a k with
  | nil => rw [List.length_nil, if_neg (by omega), xorStateBytes]
  | cons v m ih =>
    rw [List.length_cons] at hk ⊢
    rw [xorStateBytes, ih _ _ (by omega), stateByte_xorStateByte a k v (by omega) j hj]
    obtain hlt | rfl | hgt := Nat.lt_trichotomy j k
    · rw [if_neg (by omega), if_neg (by omega), if_neg (by omega)]
    · rw [if_neg (by omega), if_pos rfl, if_pos (by omega), Nat.sub_self, List.getD_cons_zero]
    · obtain ⟨d, rfl⟩ : ∃ d, j = k + 1 + d := ⟨j - (k + 1), by omega⟩
      rw [if_neg (show k + 1 + d ≠ k by omega), show k + 1 + d - k = d + 1 by omega, List.getD_cons_succ,
        show k + 1 + d - (k + 1) = d by omega]
      exact if_congr (by omega) rfl rfl

/-- The bytes do not reach the end of the rate: nothing is permuted. -/
theorem absorb_below_rate (m : List Byte) (p : Sponge) (h : p.rateUsed.val + m.length < 168) :
    (p.absorb m).lanes = xorStateBytes p.lanes p.rateUsed.val m ∧
      (p.absorb m).rateUsed.val = p.rateUsed.val + m.length := by
  induction m generalizing p with
  | nil => exact ⟨rfl, rfl⟩
  | cons v m ih =>
    rw [List.length_cons] at h
    have hbyte : p.absorbByte v = { p with
        lanes := xorStateByte p.lanes p.rateUsed.val v, rateUsed := ⟨p.rateUsed.val + 1, by omega⟩ } :=
      dif_pos (by omega)
    obtain ⟨hlanes, hrate⟩ := ih (p.absorbByte v) (by rw [hbyte]; simp only; omega)
    rw [absorb_cons, hlanes, hrate, hbyte]
    exact ⟨rfl, by simp only [List.length_cons]; omega⟩

theorem absorbByte_fills (p : Sponge) (v : Byte) (h : p.rateUsed.val + 1 = 168) :
    p.absorbByte v = { p with lanes := keccakF (xorStateByte p.lanes p.rateUsed.val v), rateUsed := 0 } :=
  dif_neg (by omega)

theorem xorStateBytes_append (m : List Byte) (v : Byte) (a : Lanes) (k : Nat) :
    xorStateBytes a k (m ++ [v]) = xorStateByte (xorStateBytes a k m) (k + m.length) v := by
  induction m generalizing a k with
  | nil => rfl
  | cons w m ih =>
    rw [List.cons_append, xorStateBytes, ih, xorStateBytes, List.length_cons, Nat.add_right_comm, Nat.add_assoc]

/-- The bytes fill the rate: the permutation runs once, after the last of them. -/
theorem absorb_fills_rate (m : List Byte) (p : Sponge) (hr : p.rateUsed.val ≤ 167)
    (h : p.rateUsed.val + m.length = 168) :
    (p.absorb m).lanes = keccakF (xorStateBytes p.lanes p.rateUsed.val m) ∧ (p.absorb m).rateUsed.val = 0 := by
  obtain rfl | ⟨l, v, rfl⟩ := m.eq_nil_or_concat'
  · rw [List.length_nil] at h
    omega
  · rw [List.length_append, List.length_singleton] at h
    obtain ⟨hlanes, hrate⟩ := absorb_below_rate l p (by omega)
    rw [absorb_append, absorb_cons, absorb_nil, absorbByte_fills _ _ (by omega), xorStateBytes_append, ← hlanes,
      ← hrate]
    exact ⟨rfl, rfl⟩

theorem getD_readBytes (m : Memory) (a : Nat) {n k : Nat} (h : k < n) : (m.readBytes a n).getD k 0 = m.read (a + k) :=
  getD_tabulateFrom _ _ _ _ _ h

theorem phase_of_accepts_absorb {s : State} (h : s.Accepts .spongeAbsorb) : s.sponge.phase = .absorb := by
  obtain ⟨_, hp⟩ := h
  cases hphase : s.sponge.phase
  · rfl
  · rw [hphase] at hp
    cases hp

/-- Settles O38: byte by byte until the rate is full, and the permutation only then. -/
theorem absorbXorsAtTheRateOffset : Obligations.AbsorbXorsAtTheRateOffset := by
  intro s hacc hadm hr hfit
  let m : List Byte := s.readBytes s.latch.operands.srcAddr s.latch.operands.srcLen.toNat
  have hm : m.length = s.latch.operands.srcLen.toNat := Memory.length_readBytes _ _ _
  refine ⟨_, xorStateBytes s.sponge.lanes s.sponge.rateUsed.val m, exec_of_accepts hacc hadm,
    finishes_effect .spongeAbsorb s .ok, fun k hk => ?bytes, ?rate, ?phase, ?ctx, fun c => ?mem⟩
  case bytes =>
    rw [stateByte_xorStateBytes m _ _ (by omega) hk, hm]
    refine if_ctx_congr Iff.rfl (fun hin => ?_) fun _ => rfl
    exact congrArg _ (getD_readBytes _ _ (by omega))
  case rate =>
    rw [complete_sponge, effect_spongeAbsorb]
    split_ifs with hfull
    · exact absorb_fills_rate m s.sponge hr (by omega)
    · obtain ⟨hlanes, hrate⟩ := absorb_below_rate m s.sponge (by omega)
      exact ⟨hlanes, hrate.trans (by rw [hm])⟩
  case phase => rw [complete_sponge, effect_spongeAbsorb, absorb_phase, phase_of_accepts_absorb hacc]
  case ctx => rw [complete_ctx, effect_spongeAbsorb]
  case mem => rw [complete_mem, effect_spongeAbsorb]

/-! ### Absorbing in any split (41_sponge.md R123) -/

/-- `SPONGE_ABSORB` in the absorb phase from an operand that is not null has absorbed its bytes. -/
theorem spongeAbsorb_next {s t : State} (h : exec .spongeAbsorb s = .next t) (hp : s.sponge.phase = .absorb)
    (hn : ¬ (s.latch.operands.srcAddr = 0 ∧ s.latch.operands.srcLen ≠ 0)) :
    t.sponge = s.sponge.absorb (s.mem.readBytes s.latch.operands.srcAddr.toNat s.latch.operands.srcLen.toNat) ∧
      t.mem = s.mem := by
  obtain ⟨hnull, _⟩ | ⟨_, hphase, _⟩ | ⟨_, _, rfl⟩ := exec_next_cases h
  · exact absurd ((nullSpan_iff _ _).1 hnull) hn
  · rw [hp] at hphase
    cases hphase
  · rw [complete_sponge, complete_mem, effect_spongeAbsorb]
    exact ⟨rfl, rfl⟩

/-- Adjacent ranges up to the end of the address space read as one; a range at the end is empty. -/
theorem readBytes_adjacent (m : Memory) {a : Addr} {k n : Word} (ha : a ≠ 0)
    (h : a.toNat + k.toNat + n.toNat ≤ 2 ^ 64) :
    m.readBytes a.toNat (k + n).toNat = m.readBytes a.toNat k.toNat ++ m.readBytes (a + k).toNat n.toNat := by
  have hpos : 0 < a.toNat := Nat.pos_of_ne_zero fun h0 => ha (BitVec.eq_of_toNat_eq h0)
  have hlen : (k + n).toNat = k.toNat + n.toNat := BitVec.toNat_add_of_lt (by omega)
  rw [hlen, Memory.readBytes_add]
  obtain hn | hn := Nat.eq_zero_or_pos n.toNat
  · rw [hn]
    rfl
  · rw [BitVec.toNat_add_of_lt (by omega)]

/-- Settles O39: each command absorbs its bytes, and absorbing a joined string is absorbing its parts. -/
theorem absorbSplitsAnywhere : Obligations.AbsorbSplitsAnywhere := by
  intro s t u w k n hp ha hfit hw ht hu
  obtain ⟨ew, _⟩ := spongeAbsorb_next hw hp fun h => ha h.1
  obtain ⟨et, emem⟩ := spongeAbsorb_next ht hp fun h => ha h.1
  have hpt : t.sponge.phase = .absorb := by rw [et, absorb_phase, hp]
  have hnull : ¬ (s.latch.operands.srcAddr + k = 0 ∧ n ≠ 0) := by
    -- A second range that starts at address 0 follows a first that ends with the address space.
    bv_omega
  obtain ⟨eu, _⟩ := spongeAbsorb_next hu hpt hnull
  rw [eu, ew, et, emem, readBytes_adjacent _ ha hfit, absorb_append]

/-! ### Squeezing (41_sponge.md R125) -/

/-- The sponge that the next byte is squeezed from: an exhausted rate is permuted, and starts again. -/
def Sponge.refreshed (p : Sponge) : Sponge :=
  if p.rateUsed.val = 168 then { p with lanes := keccakF p.lanes, rateUsed := 0 } else p

theorem squeezeByte_of_exhausted {p : Sponge} (h : p.rateUsed.val = 168) :
    p.squeezeByte = (stateByte (keccakF p.lanes) 0, { p with lanes := keccakF p.lanes, rateUsed := 1 }) :=
  dif_neg (by omega)

theorem squeezeByte_refreshed (p : Sponge) : p.refreshed.squeezeByte = p.squeezeByte := by
  unfold Sponge.refreshed
  split_ifs with h
  · rw [squeezeByte_of_exhausted h]
    rfl
  · rfl

/-- With nothing to squeeze nothing is permuted; else the permutation comes first. -/
theorem squeeze_refreshed {n : Nat} (hn : n ≠ 0) (p : Sponge) : Sponge.squeeze n p.refreshed = Sponge.squeeze n p := by
  obtain ⟨n, rfl⟩ := Nat.exists_eq_succ_of_ne_zero hn
  rw [squeeze_succ, squeeze_succ, squeezeByte_refreshed]

/-- Squeezing is the first bytes, then the rest from the sponge they leave. -/
theorem squeeze_add (m n : Nat) (p : Sponge) :
    (Sponge.squeeze (m + n) p).1 = (Sponge.squeeze m p).1 ++ (Sponge.squeeze n (Sponge.squeeze m p).2).1 ∧
      (Sponge.squeeze (m + n) p).2 = (Sponge.squeeze n (Sponge.squeeze m p).2).2 := by
  induction m generalizing p with
  | zero => simp
  | succ m ih =>
    obtain ⟨hbytes, hsponge⟩ := ih p.squeezeByte.2
    rw [Nat.add_right_comm, squeeze_succ, squeeze_succ]
    exact ⟨congrArg _ hbytes, hsponge⟩

/-! ### `SPONGE_SQUEEZE` (41_sponge.md R130) -/

section squeeze
variable (s : State)

theorem effect_squeeze_sponge :
    (effect .spongeSqueeze s).sponge = (Sponge.squeeze s.latch.operands.dstLen.toNat s.sponge).2 := rfl

theorem effect_squeeze_mem : (effect .spongeSqueeze s).mem = s.mem.writeBytes s.latch.operands.dstAddr.toNat
    (Sponge.squeeze s.latch.operands.dstLen.toNat s.sponge).1 := rfl

theorem effect_squeeze_ctx : (effect .spongeSqueeze s).ctx = s.ctx := rfl

theorem effect_squeeze_sameMemoryOutside :
    s.SameMemoryOutside (effect .spongeSqueeze s) s.latch.operands.dstAddr.toNat s.latch.operands.dstLen.toNat := by
  intro c hc
  rw [effect_squeeze_mem, Memory.read_writeBytes_outside _ _ _ _ (by rwa [length_squeeze])]

end squeeze

theorem phase_of_accepts_squeeze {s : State} (h : s.Accepts .spongeSqueeze) : s.sponge.phase = .squeeze := by
  obtain ⟨_, hp⟩ := h
  cases hphase : s.sponge.phase
  · rw [hphase] at hp
    cases hp
  · rfl

/-- An accepted squeeze writes its stream at `dst_addr`. -/
theorem readBytes_effect_squeeze {s : State} (hw : s.mem.wf = true) (hadm : s.Admits .spongeSqueeze) :
    (effect .spongeSqueeze s).mem.readBytes s.latch.operands.dstAddr.toNat s.latch.operands.dstLen.toNat =
      (Sponge.squeeze s.latch.operands.dstLen.toNat s.sponge).1 := by
  rw [effect_squeeze_mem]
  exact readBytes_output hw hadm (List.mem_singleton.2 rfl) (length_squeeze _ _)

/-- Settles O41: from the sponge refreshed if need be, the bytes come from the rate alone. -/
theorem squeezeCopiesTheRate : Obligations.SqueezeCopiesTheRate := by
  intro s a r hw hacc hadm har hfit
  -- `p` is the sponge that the bytes are copied from.
  obtain ⟨p, hp, hlanes, hrate⟩ : ∃ p : Sponge, Sponge.squeeze s.latch.operands.dstLen.toNat p =
      Sponge.squeeze s.latch.operands.dstLen.toNat s.sponge ∧ p.lanes = a ∧ p.rateUsed.val = r := by
    split_ifs at har with hex
    · obtain ⟨hfull, hlen⟩ := hex
      obtain ⟨rfl, rfl⟩ := Prod.mk.inj har
      refine ⟨s.sponge.refreshed, squeeze_refreshed (fun h => hlen (BitVec.eq_of_toNat_eq h)) _, ?_, ?_⟩
      · rw [Sponge.refreshed, if_pos hfull]
      · rw [Sponge.refreshed, if_pos hfull]
        rfl
    · obtain ⟨rfl, rfl⟩ := Prod.mk.inj har
      exact ⟨s.sponge, rfl, rfl, rfl⟩
  obtain ⟨hbytes, hl, hr⟩ := squeeze_within_rate s.latch.operands.dstLen.toNat p (by rwa [hrate])
  rw [hp] at hbytes hl hr
  refine ⟨_, exec_of_accepts hacc hadm, finishes_effect .spongeSqueeze s .ok, fun j hj => ?bytes,
    effect_squeeze_sameMemoryOutside s, ?lanes, ?rate, ?phase, ?ctx⟩
  case bytes =>
    rw [complete_mem, ← getD_readBytes _ _ hj, readBytes_effect_squeeze hw hadm, hbytes, getD_tabulateFrom _ _ _ _ _ hj,
      hlanes, hrate]
  case lanes => rw [complete_sponge, effect_squeeze_sponge, hl, hlanes]
  case rate => rw [complete_sponge, effect_squeeze_sponge, hr, hrate]
  case phase => rw [complete_sponge, effect_squeeze_sponge, squeeze_phase, phase_of_accepts_squeeze hacc]
  case ctx => rw [complete_ctx, effect_squeeze_ctx]

/-- Settles O42: the stream is what the accepted command writes, and `squeeze_add` cuts it. -/
theorem squeezeSplitsAnywhere : Obligations.SqueezeSplitsAnywhere :=
  ⟨fun s hw hacc hadm => ⟨_, exec_of_accepts hacc hadm, finishes_effect .spongeSqueeze s .ok,
    readBytes_effect_squeeze hw hadm, effect_squeeze_sponge s⟩, fun p m n => squeeze_add m n p⟩

/-- Settles O43: a rejected command changes neither memory nor the sponge nor the context, and an accepted one by its
effect. -/
theorem spongeStreamFrame : Obligations.SpongeStreamFrame := by
  refine fun s t => ⟨fun h => ?absorb, fun h => ?squeeze⟩
  case absorb =>
    obtain ⟨_, rfl⟩ | ⟨_, _, rfl⟩ | ⟨_, _, rfl⟩ := exec_next_cases h
    · exact ⟨fun _ => rfl, rfl, rfl⟩
    · exact ⟨fun _ => rfl, rfl, rfl⟩
    · refine ⟨fun c => ?_, ?_, ?_⟩
      · rw [complete_mem, effect_spongeAbsorb]
      · rw [complete_sponge, effect_spongeAbsorb, absorb_phase]
      · rw [complete_ctx, effect_spongeAbsorb]
  case squeeze =>
    obtain ⟨_, rfl⟩ | ⟨_, _, rfl⟩ | ⟨_, _, rfl⟩ := exec_next_cases h
    · exact ⟨fun _ _ => rfl, rfl, rfl⟩
    · exact ⟨fun _ _ => rfl, rfl, rfl⟩
    · refine ⟨effect_squeeze_sameMemoryOutside s, ?_, ?_⟩
      · rw [complete_sponge, effect_squeeze_sponge, squeeze_phase]
      · rw [complete_ctx, effect_squeeze_ctx]

end Sys2Proof.Machine
end

section
/-! The compressor (42_sbox_compress.md R142 to R151): the mixer, the zero context, and the three commands. -/

namespace Sys2Proof.Machine

/-- Settles O46: the rotation amount is those six bits. -/
theorem rotationAmountIsBits61To56 : Obligations.RotationAmountIsBits61To56 := by
  intro s m k hk
  rw [Config.rotShift, entry_rotationMix 56 s m hk, rotAmount_56, rotl64]

/-! ### Zeros stay zeros (42_sbox_compress.md R149) -/

/-- Every word of the chain is zero. -/
def ZeroChain (s : Chain) : Prop := ∀ i, i < 8 → entry s i = 0

theorem rotl64_of_zero (n : Nat) : rotl64 0 n = 0 := by
  apply BitVec.eq_of_getLsbD_eq
  intro j hj
  simp [rotl64]

section zero
variable {s : Chain} (h : ZeroChain s)
include h

theorem zeroChain_mixLine {a b d : Nat} (r : Nat) (ha : a < 8) (hb : b < 8) (hd : d < 8) (had : a ≠ d) :
    ZeroChain (mixLine s a b d r) := by
  intro i hi
  rw [entry_mixLine s b r ha hd had hi, h a ha, h b hb, h d hd, h i hi]
  split_ifs
  · exact rotl64_of_zero r
  · rfl
  · rfl

theorem zeroChain_quarterMix {a b c d : Nat} (hok : a < 8 ∧ b < 8 ∧ c < 8 ∧ d < 8 ∧ a ≠ d ∧ c ≠ b) :
    ZeroChain (quarterMix s a b c d) := by
  obtain ⟨ha, hb, hc, hd, had, hcb⟩ := hok
  have h1 := zeroChain_mixLine h 32 ha hb hd had
  have h2 := zeroChain_mixLine h1 24 hc hd hb hcb
  have h3 := zeroChain_mixLine h2 16 ha hb hd had
  exact zeroChain_mixLine h3 63 hc hd hb hcb

theorem zeroChain_shiftWords : ZeroChain (shiftWords s) := by
  intro i hi
  rw [entry_shiftWords s hi, h _ (Nat.mod_lt _ (by decide))]

theorem zeroChain_arxRound : ZeroChain (arxRound s) := by
  have h1 : ZeroChain (quarterMix s 0 1 2 3) := zeroChain_quarterMix h (by decide)
  have h2 : ZeroChain (quarterMix _ 4 5 6 7) := zeroChain_quarterMix h1 (by decide)
  have h3 : ZeroChain (quarterMix _ 0 5 2 7) := zeroChain_quarterMix h2 (by decide)
  have h4 : ZeroChain (quarterMix _ 4 1 6 3) := zeroChain_quarterMix h3 (by decide)
  exact zeroChain_shiftWords h4

theorem zeroChain_rotationMix (r : Nat) {m : Chain} (hm : ZeroChain m) : ZeroChain (rotationMix r s m) := by
  intro k hk
  rw [entry_rotationMix r s m hk, h k hk, hm k hk, rotl64_of_zero]
  rfl

end zero

/-- Through the zero S-box every block is loaded as zero words. -/
theorem zeroChain_loadWords_substitute {sbox : SBox} (h : ∀ i, i < 256 → entry sbox i = 0) (b : Block) :
    ZeroChain (loadWords (substitute sbox b)) := by
  intro k hk
  have hbytes : ∀ j, j < 8 → entry (substitute sbox b) (8 * k + j) = 0 := fun j hj => by
    rw [entry_substitute sbox b (by omega), h _ (entry b (8 * k + j)).isLt]
  rw [loadWords, entry_tabulate _ hk, le64_congr hbytes]
  rfl

theorem zeroChain_compress {h : Chain} {sbox : SBox} (hh : ZeroChain h) (hs : ∀ i, i < 256 → entry sbox i = 0)
    (b : Block) : ZeroChain (compress h sbox b) := by
  have hmix := zeroChain_rotationMix hh Config.rotShift (zeroChain_loadWords_substitute hs b)
  have hrounds : ZeroChain (arxRounds _) := zeroChain_arxRound (zeroChain_arxRound hmix)
  intro i hi
  rw [compress, compressWith, entry_feedForward _ _ hi, hh i hi, hrounds i hi]
  rfl

/-- Settles O47: each step of the compression takes zeros to zeros. -/
theorem zeroContextCompressesToZero : Obligations.ZeroContextCompressesToZero :=
  fun _ _ b hh hs => zeroChain_compress hh hs b

/-! ### `QV_COMPRESS`, `SBOX_LOAD` and `HSTATE_LOAD` (42_sbox_compress.md R149 to R151) -/

/-- The bytes at `src_addr` as a register file. -/
def State.srcBytes (s : State) (n : Nat) : Vector Byte n :=
  tabulate n fun i => s.mem.read (s.latch.operands.srcAddr.toNat + i)

theorem entry_srcBytes (s : State) {n i : Nat} (h : i < n) :
    entry (s.srcBytes n) i = s.mem.read (s.latch.operands.srcAddr.toNat + i) := entry_tabulate _ h

theorem effect_qvCompress (s : State) :
    effect .qvCompress s = s.setH (compress s.ctx.h s.ctx.sbox (s.srcBytes 64)) := rfl

theorem effect_sboxLoad (s : State) : effect .sboxLoad s = s.setSbox (s.srcBytes 256) := rfl

theorem effect_hstateLoad (s : State) : effect .hstateLoad s = s.setH (tabulate 8 fun k => le64 fun j =>
    s.mem.read (s.latch.operands.srcAddr.toNat + 8 * k + j)) := rfl

theorem setH_ctx (s : State) (h : Chain) : (s.setH h).ctx = { s.ctx with h := h } := rfl

theorem setSbox_ctx (s : State) (t : SBox) : (s.setSbox t).ctx = { s.ctx with sbox := t } := rfl

theorem entry_arxRound (s : Chain) {i : Nat} (h : i < 8) : entry (arxRound s) i =
    entry (quarterMix (quarterMix (quarterMix (quarterMix s 0 1 2 3) 4 5 6 7) 0 5 2 7) 4 1 6 3) ((i + 1) % 8) :=
  entry_shiftWords _ h

/-- Settles O48: the witnesses are the values that the steps of `compressWith` pass on. -/
theorem qvCompressCompressesOneBlock : Obligations.QvCompressCompressesOneBlock := by
  intro s ha hadm
  let b : Block := s.srcBytes 64
  let m : Chain := loadWords (substitute s.ctx.sbox b)
  let w0 : Chain := rotationMix Config.rotShift s.ctx.h m
  refine ⟨_, b, m, w0, arxRound w0, arxRound (arxRound w0), exec_of_accepts (accepts_of_srcAddr rfl rfl ha) hadm,
    finishes_effect .qvCompress s .ok, fun i hi => entry_srcBytes s hi, fun k j hk hj => ?words,
    fun k hk => rotationAmountIsBits61To56 s.ctx.h m k hk, fun i hi => entry_arxRound _ hi,
    fun i hi => entry_arxRound _ hi, fun i hi => entry_feedForward _ _ hi, ?ctx, ?sponge, fun c => ?mem⟩
  case words => rw [byte_loadWords _ hk hj, entry_substitute _ _ (by omega)]
  case ctx => rw [complete_ctx, effect_qvCompress, setH_ctx]
  case sponge => rw [complete_sponge, effect_qvCompress, setH_sponge]
  case mem => rw [complete_mem, effect_qvCompress, setH_mem]

/-- Settles O49: the table is the bytes at `src_addr`. -/
theorem sboxLoadLoadsTheTable : Obligations.SboxLoadLoadsTheTable := by
  refine fun s ha hadm => ⟨_, exec_of_accepts (accepts_of_srcAddr rfl rfl ha) hadm, finishes_effect .sboxLoad s .ok,
    fun i hi => ?table, ?ctx, ?sponge, fun c => ?mem⟩
  case table => rw [complete_ctx, effect_sboxLoad, setSbox_sbox, entry_srcBytes s hi]
  case ctx => rw [complete_ctx, effect_sboxLoad, setSbox_ctx]
  case sponge => rw [complete_sponge, effect_sboxLoad, setSbox_sponge]
  case mem => rw [complete_mem, effect_sboxLoad, setSbox_mem]

/-- Settles O50: each word is built from its eight bytes. -/
theorem hstateLoadLoadsLittleEndianWords : Obligations.HstateLoadLoadsLittleEndianWords := by
  refine fun s ha hadm => ⟨_, exec_of_accepts (accepts_of_srcAddr rfl rfl ha) hadm, finishes_effect .hstateLoad s .ok,
    fun k j hk hj => ?words, ?ctx, ?sponge, fun c => ?mem⟩
  case words =>
    rw [complete_ctx, effect_hstateLoad, setH_h, entry_tabulate _ hk]
    exact byteOf_le64 _ hj
  case ctx => rw [complete_ctx, effect_hstateLoad, setH_ctx]
  case sponge => rw [complete_sponge, effect_hstateLoad, setH_sponge]
  case mem => rw [complete_mem, effect_hstateLoad, setH_mem]

end Sys2Proof.Machine
end

section
/-! The hash commands (43_stream.md R171 to R180): update, final and the one-shot hash, the padding, and what the digest
depends on. -/

namespace Sys2Proof.Machine

/-! ### The digest as a function of key and data (43_stream.md R172, R179, R180) -/

/-- Settles O59: the updates leave the same stream as one update with all of the data. -/
theorem splitsAreImmaterial : Obligations.SplitsAreImmaterial := fun c c' key pieces =>
  digest_of_sameStream ((sameStream_foldl_streamUpdate pieces _).trans
    (sameStream_streamUpdate (sameStream_streamInit c c' key) pieces.flatten))

/-- Settles O58: both commands write the digest of init and one update, which is the same stream on both machines. -/
theorem digestDependsOnKeyAndDataOnly : Obligations.DigestDependsOnKeyAndDataOnly := by
  intro s s' t t' i i' hi hi' hw hw' h hok h' hok' hkey hdata
  rw [readBytes_oneShot hi hw h hok, readBytes_oneShot hi' hw' h' hok', hkey, hdata]
  exact digest_of_sameStream (sameStream_streamUpdate (sameStream_streamInit s.ctx s'.ctx _) _)

/-! ### `QV_FINAL` and the one-shot hash (43_stream.md R176 to R178) -/

theorem context_zero_isZero : Context.zero.IsZero :=
  ⟨fun _ hi => entry_tabulate _ hi, fun _ hi => entry_tabulate _ hi, fun _ hi => entry_tabulate _ hi, rfl, rfl⟩

/-- A digest is stored in 32 bytes only. -/
theorem read_writeBytes_digest_outside (m : Memory) (x : Context) {a c : Nat} (h : c < a ∨ a + 32 ≤ c) :
    (m.writeBytes a x.digest).read c = m.read c :=
  Memory.read_writeBytes_outside _ m a c (by rwa [length_digest])

theorem accepts_qvFinal {s : State} (h : s.latch.operands.dstAddr ≠ 0) : s.Accepts .qvFinal :=
  ⟨beq_eq_false_iff_ne.2 h, rfl⟩

/-- Settles O53: the digest is stored, then the context is zeroed. -/
theorem qvFinalWritesTheDigest : Obligations.QvFinalWritesTheDigest := by
  intro s hw ha hadm
  have hexec := exec_of_accepts (accepts_qvFinal ha) hadm
  refine ⟨_, hexec, finishes_effect .qvFinal s .ok, readBytes_qvFinal hw hexec rfl, fun c hc => ?frame, ?ctx, ?sponge⟩
  case frame => rw [complete_mem, effect_qvFinal, streamFinal_mem, read_writeBytes_digest_outside _ _ hc]
  case ctx =>
    rw [complete_ctx, effect_qvFinal, streamFinal_ctx]
    exact context_zero_isZero
  case sponge => rw [complete_sponge, effect_qvFinal, streamFinal_sponge]

/-- Settles O56: the effect of both commands is init, update and final on the bytes read first. -/
theorem oneShotHashIsInitUpdateFinal : Obligations.OneShotHashIsInitUpdateFinal := by
  intro s i hi hw hacc hadm
  have hexec := exec_of_accepts hacc hadm
  refine ⟨_, hexec, finishes_effect i s .ok, readBytes_oneShot hi hw hexec rfl, fun c hc => ?frame, ?ctx, ?sponge⟩
  case frame =>
    rw [complete_mem, effect_oneShot hi, streamFinal_mem, read_writeBytes_digest_outside _ _ hc, streamUpdate_mem,
      streamInit_mem]
  case ctx =>
    rw [complete_ctx, effect_oneShot hi, streamFinal_ctx]
    exact context_zero_isZero
  case sponge =>
    rw [complete_sponge, effect_oneShot hi, streamFinal_sponge, streamUpdate_sponge, streamInit_sponge]
    exact sponge_init_isFresh

/-! ### The padding (43_stream.md R173) -/

theorem finalChain_short {c : Context} (h : c.bufLen.val ≤ 55) :
    c.finalChain = compress c.h c.sbox (withLength (padBlock c.buf c.bufLen.val) c.totalLen) := by
  rw [Context.finalChain, if_neg (by omega)]

theorem finalChain_long {c : Context} (h : 56 ≤ c.bufLen.val) :
    c.finalChain = compress (compress c.h c.sbox (padBlock c.buf c.bufLen.val)) c.sbox
      (withLength (tabulate 64 fun _ => 0) c.totalLen) := by
  rw [Context.finalChain, if_pos (by omega)]

theorem digest_eq (c : Context) : c.digest = digestBytes c.finalChain := rfl

/-- Settles O54: the length stands in the padded block itself. -/
theorem shortTailIsPaddedIntoOneBlock : Obligations.ShortTailIsPaddedIntoOneBlock := by
  refine fun c h => ⟨withLength (padBlock c.buf c.bufLen.val) c.totalLen, c.finalChain, finalChain_short h,
    fun j hj => ?block, length_digest c, fun j hj => getD_digestBytes c.finalChain hj⟩
  case block =>
    rw [entry_withLength _ _ hj, entry_padBlock _ _ hj, byteOf]
    split_ifs <;> first | rfl | omega

/-- Settles O55: the padded block has no room for the length, which follows in a block of its own. -/
theorem longTailIsPaddedIntoTwoBlocks : Obligations.LongTailIsPaddedIntoTwoBlocks := by
  refine fun c h => ⟨padBlock c.buf c.bufLen.val, withLength (tabulate 64 fun _ => 0) c.totalLen, c.finalChain,
    finalChain_long h, fun j hj => entry_padBlock _ _ hj, fun j hj => ?block, length_digest c,
    fun j hj => getD_digestBytes c.finalChain hj⟩
  case block => rw [entry_withLength _ _ hj, entry_tabulate _ hj, byteOf]

/-- The zero context has a digest of zeros (43_stream.md R176). -/
theorem getD_digest_of_isZero {c : Context} (h : c.IsZero) {j : Nat} (hj : j < 32) : c.digest.getD j 0 = 0 := by
  obtain ⟨hh, hs, _, hlen, _⟩ := h
  have hchain : ZeroChain c.finalChain := by
    rw [finalChain_short (by rw [hlen]; decide)]
    exact zeroChain_compress hh hs _
  rw [digest_eq, getD_digestBytes _ hj, hchain _ (by omega)]
  exact BitVec.extractLsb'_zero

/-- Settles O57: the digest of the zero context is what the command writes. -/
theorem uninitialisedFinalWritesZeros : Obligations.UninitialisedFinalWritesZeros := by
  intro s hw ha hadm hzero
  have hexec := exec_of_accepts (accepts_qvFinal ha) hadm
  refine ⟨_, hexec, rfl, fun j hj => ?_⟩
  rw [← getD_readBytes _ _ hj, readBytes_qvFinal hw hexec rfl, getD_digest_of_isZero hzero hj]

/-! ### `QV_UPDATE` (43_stream.md R171, R175) -/

theorem buffered_eq_take (c : Context) : c.buffered = c.buf.toList.take c.bufLen.val := by
  apply List.ext_getElem
  · rw [length_buffered, List.length_take, Vector.length_toList]
    omega
  · intro j hj _
    rw [length_buffered] at hj
    simp only [Context.buffered, getElem_tabulateFrom, Nat.zero_add, List.getElem_take,
      entry_eq_getElem c.buf (show j < 64 by omega), Vector.getElem_toList]

theorem fillFrom_nil (buf : Block) (n : Nat) : fillFrom buf n [] = buf :=
  ext_entry fun j hj => by rw [entry_fillFrom buf n [] hj, List.length_nil, if_neg (by omega)]

/-- An update with no data leaves the whole context. -/
theorem streamUpdate_nil (c : Context) : c.streamUpdate [] = c := by
  obtain ⟨h, sbox, buf, bufLen, totalLen⟩ := c
  simp only [Context.streamUpdate, Context.absorbData, Context.absorbBlocks, List.length_nil, Nat.add_zero,
    Nat.zero_div, compressBlocks_zero, fillFrom_nil, BitVec.add_zero]
  split_ifs with hpos hlt
  · rfl
  · omega
  · rw [show bufLen = ⟨0 % 64, by decide⟩ from Fin.ext (Nat.eq_zero_of_not_pos hpos)]

theorem entry_absorbBlocks_buf_above (c : Context) (d : List Byte) {j : Nat} (hlo : d.length % 64 ≤ j) (hj : j < 64) :
    entry (c.absorbBlocks d).buf j = entry c.buf j := by
  show entry (fillFrom c.buf 0 (drain c.sbox c.h d).2) j = entry c.buf j
  rw [entry_fillFrom _ _ _ hj, length_drain_rest, if_neg (by omega)]

/-- The buffer bytes at the new `BUF_LEN` and above: those of the block completed in the buffer, if one was. -/
theorem entry_absorbData_buf_above (c : Context) (d : List Byte) {j : Nat} (hlo : (c.buffered ++ d).length % 64 ≤ j)
    (hj : j < 64) : entry (c.absorbData d).buf j =
      if 64 ≤ (c.buffered ++ d).length ∧ 0 < c.bufLen.val then (c.buffered ++ d).getD j 0 else entry c.buf j := by
  rw [List.length_append, length_buffered] at hlo ⊢
  unfold Context.absorbData
  split_ifs with hpos hlt hfull hfull hfull
  · omega
  · rw [entry_fillFrom _ _ _ hj, if_neg (by omega)]
  · have hd : c.bufLen.val + (d.take (64 - c.bufLen.val)).length = 64 := by
      rw [List.length_take]
      omega
    rw [entry_absorbBlocks_buf_above _ _ (by rw [List.length_drop]; omega) hj, fillFrom_full c hd,
      entry_bytesVector 64 _ hj]
    conv_rhs => rw [← List.take_append_drop (64 - c.bufLen.val) d, ← List.append_assoc]
    exact (List.getD_append _ _ _ _ (by rw [List.length_append, length_buffered, hd]; exact hj)).symm
  · omega
  · omega
  · exact entry_absorbBlocks_buf_above c d (by omega) hj

theorem drain_chain (sbox : SBox) (h : Chain) (x : List Byte) : (drain sbox h x).1 =
    (List.range (x.length / 64)).foldl (fun h b => compress h sbox (tabulate 64 fun j => x.getD (64 * b + j) 0)) h :=
  compressBlocks_chain sbox _ h x

theorem drain_rest (sbox : SBox) (h : Chain) (x : List Byte) :
    (drain sbox h x).2 = x.drop (64 * (x.length / 64)) :=
  compressBlocks_rest sbox _ h x

theorem streamUpdate_bufLen (c : Context) (d : List Byte) :
    (c.streamUpdate d).bufLen.val = (c.buffered ++ d).length % 64 := by
  rw [← length_buffered, streamUpdate_buffered, length_drain_rest]

theorem entry_streamUpdate_buf_below (c : Context) (d : List Byte) {j : Nat}
    (h : j < (c.buffered ++ d).length % 64) : entry (c.streamUpdate d).buf j =
      (c.buffered ++ d).getD (64 * ((c.buffered ++ d).length / 64) + j) 0 := by
  rw [← getD_buffered _ (by rwa [streamUpdate_bufLen]), streamUpdate_buffered, drain_rest, getD_drop]

theorem entry_streamUpdate_buf_above (c : Context) (d : List Byte) {j : Nat}
    (hlo : (c.buffered ++ d).length % 64 ≤ j) (hj : j < 64) : entry (c.streamUpdate d).buf j =
      if 64 ≤ (c.buffered ++ d).length ∧ 0 < c.bufLen.val then (c.buffered ++ d).getD j 0 else entry c.buf j :=
  entry_absorbData_buf_above _ d hlo hj

/-- Settles O52: each part of the context after `stream_update`, whose blocks are those of the buffered bytes followed
by the data. -/
theorem qvUpdateAbsorbsTheData : Obligations.QvUpdateAbsorbsTheData := by
  intro s x hacc hadm hx
  let d : List Byte := s.readBytes s.latch.operands.srcAddr s.latch.operands.srcLen.toNat
  have hd : d.length = s.latch.operands.srcLen.toNat := Memory.length_readBytes _ _ _
  obtain rfl : x = s.ctx.buffered ++ d := by rw [hx, buffered_eq_take]; rfl
  have hctx : ((effect .qvUpdate s).complete .ok).ctx = s.ctx.streamUpdate d := by
    rw [complete_ctx, effect_qvUpdate, streamUpdate_ctx]
  refine ⟨_, exec_of_accepts hacc hadm, finishes_effect .qvUpdate s .ok, ?_⟩
  rw [hctx]
  refine ⟨?h, streamUpdate_bufLen s.ctx d, fun j => entry_streamUpdate_buf_below s.ctx d,
    fun j => entry_streamUpdate_buf_above s.ctx d, fun hzero => ?empty, ?totalLen, streamUpdate_sbox s.ctx d,
    ?sponge, fun c => ?mem⟩
  case h => rw [streamUpdate_h, drain_chain]
  case empty =>
    rw [List.eq_nil_of_length_eq_zero (hd.trans (by rw [hzero]; rfl)), streamUpdate_nil]
  case totalLen => rw [streamUpdate_totalLen, hd, BitVec.ofNat_toNat, BitVec.setWidth_eq]
  case sponge => rw [complete_sponge, effect_qvUpdate, streamUpdate_sponge]
  case mem => rw [complete_mem, effect_qvUpdate, streamUpdate_mem]

end Sys2Proof.Machine
end
